-- ==== Sys2Proof/Word.lean ====
section
/-! DEFINITION. The value types of the core (spec rule R8): bytes, words and u64s, all unsigned. -/

namespace Sys2Proof

/-- A byte: a number below 2^8 (R8). -/
abbrev Byte := BitVec 8

/-- A word: a number below 2^32 (R8). Its `+` is the wrapping addition of R11, its `&&&`, `|||`, `^^^`
and `~~~` the operations of R12. -/
abbrev Word := BitVec 32

/-- A u64: a number below 2^64 (R8). -/
abbrev U64 := BitVec 64

/-- The 7 bits of the schedule and round index `T` (R25). -/
abbrev Index := BitVec 7

end Sys2Proof
end

