-- ==== Sys2Proof/Config.lean ====
section
/-! DEFINITION. What an implementation or platform fixes (R6, R7), and the free values: constants with no body that
stand for every value the spec calls unspecified or does not state (assumption log 1). -/

namespace Sys2Proof

/-- The OPEN parameters of the spec. A model takes them as an argument; here they are carried in State, in a field no
step writes, so that a statement about every state is one about every parameter (DESIGN CHOICE, log 4, safe). -/
structure Params where
  /-- `MSG_MAX_BYTES`, the capacity of the message buffer in bytes (R6). -/
  msgMaxBytes : Nat
  /-- `REG_BASE`, the host bus address of register offset 0 (R7). -/
  regBase : Nat
  /-- `MSG_BASE`, the host bus address of message offset 0 (R7). -/
  msgBase : Nat
deriving DecidableEq, Repr

namespace Config

/-- An unconstrained word: slot `slot` of draw number `draw` (DESIGN CHOICE, log 1, safe). -/
opaque freeWord (draw slot : Nat) : Word

/-- An unconstrained byte (DESIGN CHOICE, log 1, safe). -/
opaque freeByte (draw slot : Nat) : Byte

/-- An unconstrained u64 (DESIGN CHOICE, log 1, safe). -/
opaque freeU64 (draw slot : Nat) : U64

/-- An unconstrained 7-bit index (DESIGN CHOICE, log 1, safe). -/
opaque freeIndex (draw : Nat) : Index

end Config

end Sys2Proof
end

