-- ==== Sys2Proof/Syntax.lean ====
section
/-! DEFINITION. The syntax of the machine: one constructor of `Instr` per row of spec/opcode_table.json, and the host's
operations, bus transactions and register names (R33, R52, R53). -/

namespace Sys2Proof

/-- The commands (format CMD, R45, R46) and the sequencer operations (format PHASE, R48). A command carries the bits
31:4 of its word, which the core ignores, and a reserved command its code `CMD`, so that no bit of a word is lost
(DESIGN CHOICE, log 13, safe). -/
inductive Instr where
  /-- NOP, `CMD = 0x0` (R74). -/
  | nop (ign : BitVec 28)
  /-- START, `CMD = 0x1` (R75). -/
  | start (ign : BitVec 28)
  /-- Reserved commands `0x2` and `0x3` (R76). -/
  | reservedCmd2_3 (ign : BitVec 28) (cmd : BitVec 4)
  /-- Reserved commands `0x4` to `0x7` (R76). -/
  | reservedCmd4_7 (ign : BitVec 28) (cmd : BitVec 4)
  /-- Reserved commands `0x8` to `0xF` (R76). -/
  | reservedCmd8_15 (ign : BitVec 28) (cmd : BitVec 4)
  /-- No step in IDLE, `PHASE = 0` (R77). -/
  | idle
  /-- The CHECK step, `PHASE = 1` (R78). -/
  | check
  /-- The LOAD step, `PHASE = 2` (R79). -/
  | load
  /-- The EXPAND step, `PHASE = 3` (R80). -/
  | expand
  /-- The ROUND step, `PHASE = 4` (R81). -/
  | round
  /-- The FEED step, `PHASE = 5` (R82). -/
  | feed
  /-- The ASSEMBLE step, `PHASE = 6` (R83). -/
  | assemble
  /-- The reserved phase, `PHASE = 7` (R84). -/
  | reservedPhase7
deriving DecidableEq, Repr

/-- What selects an operation: the word a host writes to `CTRL` (R45) or the 3-bit `PHASE` (R48). -/
inductive OpWord where
  | cmd (v : Word)
  | phase (p : BitVec 3)
deriving DecidableEq, Repr

/-- The two host-addressable spaces (R31). -/
inductive Space where
  | reg
  | msg
deriving DecidableEq, Repr

/-- The direction of a bus transaction, with the written value; an 8-bit write carries its byte in bits 7:0
(DESIGN CHOICE, log 11, safe). -/
inductive Access where
  | read
  | write (data : Word)
deriving DecidableEq, Repr

/-- A bus transaction `(space, dir, offset, width, data)` (R53). Any width and offset can be written down; those the
spec does not define are refused by the machine (R34, R37). -/
structure Transaction where
  space : Space
  access : Access
  offset : Nat
  width : Nat
deriving DecidableEq, Repr

/-- The registers of the register space (R33). -/
inductive Reg where
  | ctrl
  | status
  | msgLenLo
  | msgLenHi
  | digest (i : Fin 8)
  | reserved (k : Fin 4)
deriving DecidableEq, Repr

/-- An operation of the host's program (R52): one bus transaction, or the pseudo-operation `poll_idle`, which repeats a
read of STATUS until its bit 0 is 0. -/
inductive HostOp where
  | bus (t : Transaction)
  | pollIdle
deriving DecidableEq, Repr

/-- Who acts next in the interleaving (R42): the core, the host, or a reset (R97). -/
inductive Turn where
  | core
  | host
  | reset
deriving DecidableEq, Repr

end Sys2Proof
end

