-- ==== Sys2Proof/WellFormed.lean ====
section
/-! DEFINITION. Well-formed instructions and transactions: what the encoding tables admit. -/

namespace Sys2Proof

/-- A reserved command's code is one of its row's codes (R46: 0x2 to 0xF, the rows' match and mask in
opcode_table.json); every other operation is well formed whatever its fields. -/
def Instr.wellFormed : Instr → Bool
  | .nop _ => true
  | .start _ => true
  | .reservedCmd2_3 _ cmd => cmd &&& 0xE#4 == 0x2#4
  | .reservedCmd4_7 _ cmd => cmd &&& 0xC#4 == 0x4#4
  | .reservedCmd8_15 _ cmd => cmd &&& 0x8#4 == 0x8#4
  | .idle => true
  | .check => true
  | .load => true
  | .expand => true
  | .round => true
  | .feed => true
  | .assemble => true
  | .reservedPhase7 => true

/-- The data of an 8-bit write is a byte (R52 `wr8 MSG[<i>], <byte>`; R53). -/
def Transaction.wellFormed (t : Transaction) : Bool :=
  match t.access with
  | .read => true
  | .write data => t.width != 8 || data.toNat < 256

end Sys2Proof
end

