-- ==== Sys2Proof/Decode.lean ====
section
/-! DEFINITION. The decoder, total on the words of both formats (R50), the encoder, and the rows of
spec/opcode_table.json. -/

namespace Sys2Proof

/-- Why a bit string is no word of either format. -/
inductive DecodeError where
  /-- No format has this many bits. -/
  | noSuchFormat
  /-- The number does not fit the 32 bits of format CMD. -/
  | cmdTooWide
  /-- The number does not fit the 3 bits of format PHASE. -/
  | phaseTooWide
deriving DecidableEq, Repr

/-- Bits 3:0 of the word written to `CTRL` (R45). -/
def cmdField (v : Word) : BitVec 4 := v.extractLsb' 0 4

/-- Bits 31:4 of the word written to `CTRL`, ignored by the core (R45). -/
def ignoredField (v : Word) : BitVec 28 := v.extractLsb' 4 28

/-- The command a word written to `CTRL` delivers (R46), for all 16 codes (R50). -/
def decodeCmd (v : Word) : Instr :=
  if cmdField v = 0x0#4 then .nop (ignoredField v)
  else if cmdField v = 0x1#4 then .start (ignoredField v)
  else if cmdField v &&& 0xE#4 = 0x2#4 then .reservedCmd2_3 (ignoredField v) (cmdField v)
  else if cmdField v &&& 0xC#4 = 0x4#4 then .reservedCmd4_7 (ignoredField v) (cmdField v)
  else .reservedCmd8_15 (ignoredField v) (cmdField v)

/-- The operation a phase code selects (R48), for all 8 codes (R50). -/
def decodePhase (p : BitVec 3) : Instr :=
  if p = 0#3 then .idle
  else if p = 1#3 then .check
  else if p = 2#3 then .load
  else if p = 3#3 then .expand
  else if p = 4#3 then .round
  else if p = 5#3 then .feed
  else if p = 6#3 then .assemble
  else .reservedPhase7

/-- Decoding is total (R50). -/
def decode : OpWord → Instr
  | .cmd v => decodeCmd v
  | .phase p => decodePhase p

/-- The words of an instruction (R45, R46, R48). -/
def encode : Instr → OpWord
  | .nop ign => .cmd (ign ++ 0x0#4)
  | .start ign => .cmd (ign ++ 0x1#4)
  | .reservedCmd2_3 ign cmd => .cmd (ign ++ cmd)
  | .reservedCmd4_7 ign cmd => .cmd (ign ++ cmd)
  | .reservedCmd8_15 ign cmd => .cmd (ign ++ cmd)
  | .idle => .phase 0#3
  | .check => .phase 1#3
  | .load => .phase 2#3
  | .expand => .phase 3#3
  | .round => .phase 4#3
  | .feed => .phase 5#3
  | .assemble => .phase 6#3
  | .reservedPhase7 => .phase 7#3

/-- The operation word that `nbits` bits with the number `w` make: the 32 bits of format CMD (given shorter, in whole
bytes, its upper bits are 0), or the 3 bits of format PHASE, alone or padded to one byte (log 13). -/
def opWordOf (nbits w : Nat) : Except DecodeError OpWord :=
  if nbits = 3 ∨ nbits = 8 then
    if w < 8 then .ok (.phase (BitVec.ofNat 3 w)) else .error .phaseTooWide
  else if nbits = 16 ∨ nbits = 24 ∨ nbits = 32 then
    if w < 2 ^ nbits then .ok (.cmd (BitVec.ofNat 32 w)) else .error .cmdTooWide
  else .error .noSuchFormat

/-- Decoding of a numbered bit string, rejecting by name what is no word of either format. -/
def decodeRaw (nbits w : Nat) : Except DecodeError Instr :=
  match opWordOf nbits w with
  | .ok o => .ok (decode o)
  | .error e => .error e

/-- The host's question: the instruction the decoder reads from `nbits` bits with the number `w`. -/
def decodeTableWord (nbits w : Nat) : Option Instr :=
  match decodeRaw nbits w with
  | .ok i => some i
  | .error _ => none

/-- The two formats of the opcode table. -/
inductive OpFormat where
  | cmd
  | phase
deriving DecidableEq, Repr

/-- A row of spec/opcode_table.json: its format, match and mask. -/
structure OpRow where
  format : OpFormat
  matchBits : BitVec 32
  mask : BitVec 32
deriving DecidableEq, Repr

/-- The row of an instruction in spec/opcode_table.json. -/
def opRow : Instr → OpRow
  | .nop _ => ⟨.cmd, 0x0, 0xF⟩
  | .start _ => ⟨.cmd, 0x1, 0xF⟩
  | .reservedCmd2_3 _ _ => ⟨.cmd, 0x2, 0xE⟩
  | .reservedCmd4_7 _ _ => ⟨.cmd, 0x4, 0xC⟩
  | .reservedCmd8_15 _ _ => ⟨.cmd, 0x8, 0x8⟩
  | .idle => ⟨.phase, 0x0, 0x7⟩
  | .check => ⟨.phase, 0x1, 0x7⟩
  | .load => ⟨.phase, 0x2, 0x7⟩
  | .expand => ⟨.phase, 0x3, 0x7⟩
  | .round => ⟨.phase, 0x4, 0x7⟩
  | .feed => ⟨.phase, 0x5, 0x7⟩
  | .assemble => ⟨.phase, 0x6, 0x7⟩
  | .reservedPhase7 => ⟨.phase, 0x7, 0x7⟩

/-- The word matches the row: its format, and its masked bits. -/
def OpRow.covers (r : OpRow) : OpWord → Bool
  | .cmd v => r.format == .cmd && v &&& r.mask == r.matchBits
  | .phase p => r.format == .phase && p.setWidth 32 &&& r.mask == r.matchBits

/-- The 13 rows, in the table's order. -/
def opTable : List OpRow :=
  [opRow (.nop 0), opRow (.start 0), opRow (.reservedCmd2_3 0 2), opRow (.reservedCmd4_7 0 4),
   opRow (.reservedCmd8_15 0 8), opRow .idle, opRow .check, opRow .load, opRow .expand, opRow .round,
   opRow .feed, opRow .assemble, opRow .reservedPhase7]

end Sys2Proof
end

