-- ==== Sys2Proof/Machine/State.lean ====
section
/-! DEFINITION. The state of the machine (R17), its reset value (R30), and the reasons a step can stop. -/

namespace Sys2Proof.Machine

/-- `PHASE`, the sequencer phase (R25, R48). -/
inductive Phase where
  | idle
  | check
  | load
  | expand
  | round
  | feed
  | assemble
  | reserved7
deriving DecidableEq, Repr

/-- `ERRCODE`, the error code (R49); the codes 5 to 15 are never produced and need not be represented
(93_implementation_defined.md; log 14). -/
inductive ErrCode where
  | none
  | lenOverflow
  | lenTooBig
  | badCmd
  | internal
deriving DecidableEq, Repr

/-- The working registers `a..h` (R19). -/
structure Work where
  a : Word
  b : Word
  c : Word
  d : Word
  e : Word
  f : Word
  g : Word
  h : Word
deriving DecidableEq, Repr

/-- The message buffer: the offsets whose byte is not the one an unlisted offset reads as, strictly rising. -/
abbrev Memory := List Host.Cell

/-- The state (R17): the datapath, the host-visible registers, the sequencer position, the status flags, the message
buffer; then the parameters; then the model's own fields, which carry the free draws, the host agent and the
interleaving. -/
structure State where
  /-- `HS[0..8)`, the hash state (R18). -/
  hs : Vector Word 8
  /-- `a..h`, the working registers (R19). -/
  work : Work
  /-- `W[0..64)`, the message schedule (R20). -/
  w : Vector Word 64
  /-- `MSG_LEN`, the message length in bytes (R23). -/
  msgLen : U64
  /-- `PHASE` (R25). -/
  phase : Phase
  /-- `T`, the schedule index in EXPAND and the round index in ROUND (R25). -/
  t : Index
  /-- `BLK`, the index of the block being processed (R25). -/
  blk : U64
  /-- `NBLK`, the number of blocks of the padded message (R25). -/
  nblk : U64
  /-- `DONE` (R27). -/
  done : Bool
  /-- `ERR` (R27). -/
  err : Bool
  /-- `ERRCODE` (R27). -/
  errcode : ErrCode
  /-- `DOUT[0..32)`, the digest output buffer (R28). -/
  dout : Vector Byte 32
  /-- `MSG[0..MSG_MAX_BYTES)`, the message buffer (R32). -/
  msg : Memory
  /-- The OPEN parameters, which no step writes (R6, R7; log 4). -/
  params : Params
  /-- How many free draws were taken so far (the model's own; log 1). -/
  draws : Nat
  /-- The host's remaining program (the model's own; R52; log 6). -/
  program : List HostOp
  /-- The coming turns of the interleaving (the model's own; R42; log 5). -/
  turns : List Turn
  /-- The words the host has read, newest first (the model's own; R52; log 6). -/
  reads : List Word
deriving DecidableEq, Repr

/-- The reasons the machine stops with a fault: there is none. Every error of this core is a state it goes on from
(R87, R93), and no state is stuck (93_implementation_defined.md; log 14). -/
inductive Fault : Type
deriving DecidableEq, Repr

/-- The reasons an event is no step of the model. -/
inductive Refusal where
  /-- Raised by `exec` for an instruction that has no meaning yet (safe). No arm of this model raises it. -/
  | notModelled (mnemonic : String)
  /-- Raised by a host access to the register space of a width other than 32 bits, at an offset that is no multiple of
  4 or at an offset of 0x40 or more: "a model refuses it (no step; toward unprovable)" (R34). Safe. -/
  | registerAccessUndefined
  /-- Raised by a host access to the message space of a width other than 8 bits or at an offset of `MSG_MAX_BYTES` or
  more: "not defined by this spec and a model refuses it" (R37). Safe. -/
  | messageAccessUndefined
deriving DecidableEq, Repr

/-- The machine right after reset (R30). `PHASE`, `DONE`, `ERR`, `ERRCODE` and `MSG_LEN` have the spec's values. The spec
gives none for `T`, `BLK`, `NBLK`, `HS`, `a..h`, `W` and `DOUT`: zero here (DESIGN CHOICE, log 2, unsafe); nor for `MSG`:
no byte listed (log 3). The parameters are named in log 4, the model's own fields are empty (logs 1, 5, 6). -/
def State.reset : State where
  hs := Vector.replicate 8 0
  work := ⟨0, 0, 0, 0, 0, 0, 0, 0⟩
  w := Vector.replicate 64 0
  msgLen := 0#64
  phase := .idle
  t := 0#7
  blk := 0#64
  nblk := 0#64
  done := false
  err := false
  errcode := .none
  dout := Vector.replicate 32 0
  msg := []
  params := ⟨256, 0x0000, 0x1000⟩
  draws := 0
  program := []
  turns := []
  reads := []

end Sys2Proof.Machine
end

