-- ==== Sys2Proof/Machine/Ops.lean ====
section
/-! DEFINITION. The named operations the meanings share: byte packing, the message buffer, padding arithmetic, index
advance, error entry (the core's only exception) and the return from it. -/

namespace Sys2Proof.Machine

/-! ### Bits and bytes -/

/-- `v[hi:lo]` of a natural number (R8). -/
def bits (v hi lo : Nat) : Nat := v / 2 ^ lo % 2 ^ (hi - lo + 1)

/-- `be32(b0, b1, b2, b3)`: four bytes as a word, most significant first (R10). -/
def be32 (b0 b1 b2 b3 : Byte) : Word :=
  BitVec.ofNat 32 (b0.toNat * 2 ^ 24 + b1.toNat * 2 ^ 16 + b2.toNat * 2 ^ 8 + b3.toNat)

/-- Byte `j` of `bebytes_k(v)` (R10). -/
def beByte (k v j : Nat) : Byte := BitVec.ofNat 8 (bits v (8 * (k - 1 - j) + 7) (8 * (k - 1 - j)))

/-- `bebytes_k(v)`: the `k` bytes of `v`, most significant first (R10). -/
def beBytes (k v : Nat) : List Byte := (List.range k).map (beByte k v)

/-- `rotr(x, n)`, the 32-bit circular right rotation (R13). -/
def rotr (x : Word) (n : Nat) : Word := x >>> n ||| x <<< (32 - n)

/-- `shr(x, n)`, the logical right shift (R14). -/
def shr (x : Word) (n : Nat) : Word := x >>> n

/-! ### The message buffer -/

/-- What an offset reads as when the buffer lists nothing there (DESIGN CHOICE, log 3, unsafe: R30 leaves it open). -/
def unlistedByte : Byte := 0x00#8

/-- `MemRead(MSG, i, 1)` (R32). -/
def memRead : Memory → Nat → Byte
  | [], _ => unlistedByte
  | (a, v) :: m, i => if a = i then v else memRead m i

/-- `MemWrite(MSG, i, 1, v)` (R32), keeping the canonical form. -/
def memWrite : Memory → Nat → Byte → Memory
  | [], i, v => if v = unlistedByte then [] else [(i, v)]
  | (a, x) :: m, i, v =>
    if a < i then (a, x) :: memWrite m i v
    else if a = i then (if v = unlistedByte then m else (i, v) :: m)
    else (if v = unlistedByte then (a, x) :: m else (i, v) :: (a, x) :: m)

/-- The canonical form: offsets strictly rising, no entry that an unlisted offset would read as. -/
abbrev Memory.wf (m : Memory) : Prop :=
  m.Pairwise (fun c d => c.1 < d.1) ∧ ∀ c ∈ m, c.2 ≠ unlistedByte

/-- No byte stands at or above the buffer's capacity (R32). -/
abbrev Memory.within (m : Memory) (cap : Nat) : Prop := ∀ c ∈ m, c.1 < cap

/-- `MSG[0..n)` (R32). -/
def message (m : Memory) (n : Nat) : List Byte := (List.range n).map (memRead m)

/-! ### Padding arithmetic -/

/-- The number `z` of zero bytes of the padding, `(55 - n) mod 64` (R54). -/
def padZeros (n : Nat) : Nat := ((55 - (n : Int)) % 64).toNat

/-- `PadLen(n)` (R55). -/
def padLen (n : Nat) : Nat := n + 1 + padZeros n + 8

/-- `NBlocks(n)` (R55). -/
def nBlocks (n : Nat) : Nat := padLen n / 64

/-- The lengths the padder takes: the bit length fits in 64 bits (R58) and the message in the buffer (R56). -/
abbrev lengthOk (cap n : Nat) : Prop := n < 2 ^ 61 ∧ n ≤ cap

/-- `PadByte(n, i)` (R56); `none` where the rule's operands are out of range and it states no byte (log 8). -/
def padByte (m : Memory) (cap n i : Nat) : Option Byte :=
  if lengthOk cap n ∧ i < padLen n then
    some (if i < n then memRead m i
      else if i = n then 0x80#8
      else if i < padLen n - 8 then 0x00#8
      else beByte 8 (8 * n) (i - (padLen n - 8)))
  else none

/-! ### The sequencer position -/

/-- `T + 1` in 7 bits; `free` for the one value whose successor does not fit (log 8; unreachable, R25). -/
def nextIndex (t free : Index) : Index := if t = 127#7 then free else t + 1#7

/-- `BLK + 1` in 64 bits; `free` for the one value whose successor does not fit (log 8; unreachable, R25). -/
def nextBlock (b free : U64) : U64 := if b = BitVec.allOnes 64 then free else b + 1#64

/-! ### Error entry and the return from it -/

/-- `raise Error(code)`, error entry (R87): the flags are set, the core becomes idle, and nothing else changes. -/
def raiseError (code : ErrCode) (s : State) : State :=
  { s with done := false, err := true, errcode := code, phase := .idle }

/-- An accepted START (R75): the flags are cleared and a hash begins. It is also the only return from an error by
command (R93). -/
def acceptStart (s : State) : State :=
  { s with done := false, err := false, errcode := .none, phase := .check }

/-- A reserved command (R76): BAD_CMD when idle (R90), ignored while busy. -/
def reservedCommand (s : State) : State :=
  if s.phase = .idle then raiseError .badCmd s else s

end Sys2Proof.Machine
end

