-- ==== Sys2Proof/Machine/Mixers.lean ====
section
/-! DEFINITION. The combinational functions of the scheduler and the compressor (R61, R62, R65 to R69). -/

namespace Sys2Proof.Machine

/-- Lower-case sigma-0 (R61). -/
def smallSigma0 (x : Word) : Word := rotr x 7 ^^^ rotr x 18 ^^^ shr x 3

/-- Lower-case sigma-1 (R62). -/
def smallSigma1 (x : Word) : Word := rotr x 17 ^^^ rotr x 19 ^^^ shr x 10

/-- Upper-case sigma-0 (R65). -/
def bigSigma0 (x : Word) : Word := rotr x 2 ^^^ rotr x 13 ^^^ rotr x 22

/-- Upper-case sigma-1 (R66). -/
def bigSigma1 (x : Word) : Word := rotr x 6 ^^^ rotr x 11 ^^^ rotr x 25

/-- Choose (R67), the standard formula (90_conflicts.md C1). -/
def ch (x y z : Word) : Word := (x &&& y) ^^^ (~~~x &&& z)

/-- Majority (R68). -/
def maj (x y z : Word) : Word := (x &&& y) ^^^ (x &&& z) ^^^ (y &&& z)

/-- The schedule recurrence of R63, from `W[t-2]`, `W[t-7]`, `W[t-15]` and `W[t-16]`. -/
def scheduleSum (w2 w7 w15 w16 : Word) : Word := smallSigma1 w2 + w7 + smallSigma0 w15 + w16

/-- `T1` of R69. -/
def roundT1 (r : Work) (k w : Word) : Word := r.h + bigSigma1 r.e + ch r.e r.f r.g + k + w

/-- `T2` of R69. -/
def roundT2 (r : Work) : Word := bigSigma0 r.a + maj r.a r.b r.c

/-- One compression round with round constant `k` and schedule word `w` (R69). -/
def roundStep (k w : Word) (r : Work) : Work :=
  { a := roundT1 r k w + roundT2 r, b := r.a, c := r.b, d := r.c
    e := r.d + roundT1 r k w, f := r.e, g := r.f, h := r.g }

end Sys2Proof.Machine
end

