-- ==== Sys2Proof/Machine/Operands.lean ====
section
/-! DEFINITION. How operands are read and written: schedule words, padded-message words, the register order of R71, the
halves of MSG_LEN, the register map of R33, bus addresses (R53), and the code of a phase. -/

namespace Sys2Proof.Machine

/-! ### Datapath operands -/

/-- The schedule word `W[t - back]`, or `free` where no such word exists (log 8). -/
def scheduleWord (w : Vector Word 64) (t back : Nat) (free : Word) : Word :=
  if back ≤ t then w.getD (t - back) free else free

/-- The working registers in the order `a..h` of R71. -/
def Work.toVector (r : Work) : Vector Word 8 := #v[r.a, r.b, r.c, r.d, r.e, r.f, r.g, r.h]

/-- The working registers loaded from a hash state, register `i` from `HS[i]` (R71). -/
def Work.ofHash (v : Vector Word 8) : Work := ⟨v[0], v[1], v[2], v[3], v[4], v[5], v[6], v[7]⟩

/-- The feed-forward: each working register added into its hash-state word (R70, R71, R82). -/
def feedForward (hs : Vector Word 8) (r : Work) : Vector Word 8 :=
  #v[hs[0] + r.a, hs[1] + r.b, hs[2] + r.c, hs[3] + r.d, hs[4] + r.e, hs[5] + r.f, hs[6] + r.g, hs[7] + r.h]

/-- Schedule word `j` of the block at `base`, from the padded message (R79). -/
def loadWord (byteAt : Nat → Byte) (base j : Nat) : Word :=
  be32 (byteAt (base + 4 * j)) (byteAt (base + 4 * j + 1)) (byteAt (base + 4 * j + 2)) (byteAt (base + 4 * j + 3))

/-- The schedule with its first 16 words replaced (R79). -/
def replaceFirst16 (w : Vector Word 64) (word : Nat → Word) : Vector Word 64 :=
  Vector.ofFn (fun i : Fin 64 => if i.val < 16 then word i.val else w[i])

/-- `Assemble(S)`: byte `4*i + j` is byte `j` of word `i`, most significant first (R72). -/
def assembleDigest (hs : Vector Word 8) : Vector Byte 32 :=
  Vector.ofFn (fun k : Fin 32 => beByte 4 (hs[k.val / 4]'(by omega)).toNat (k.val % 4))

/-! ### Host-visible operands -/

/-- `MSG_LEN[31:0]` (R23). -/
def msgLenLo (n : U64) : Word := n.extractLsb' 0 32

/-- `MSG_LEN[63:32]` (R23). -/
def msgLenHi (n : U64) : Word := n.extractLsb' 32 32

/-- `MSG_LEN` with its low half replaced (R36). -/
def withMsgLenLo (n : U64) (v : Word) : U64 := msgLenHi n ++ v

/-- `MSG_LEN` with its high half replaced (R36). -/
def withMsgLenHi (n : U64) (v : Word) : U64 := v ++ msgLenLo n

/-- `DIGESTi` as a view of `DOUT` (R28). -/
def digestWord (dout : Vector Byte 32) (i : Fin 8) : Word :=
  be32 (dout[4 * i.val]'(by omega)) (dout[4 * i.val + 1]'(by omega)) (dout[4 * i.val + 2]'(by omega))
    (dout[4 * i.val + 3]'(by omega))

/-- The offset of a register (R33). -/
def regOffset : Reg → Nat
  | .ctrl => 0x00
  | .status => 0x04
  | .msgLenLo => 0x08
  | .msgLenHi => 0x0C
  | .digest i => 0x10 + 4 * i.val
  | .reserved k => 0x30 + 4 * k.val

/-- The register at an offset (R33); `none` at a misaligned offset or at 0x40 and above (R34). -/
def regAt : Nat → Option Reg
  | 0x00 => some .ctrl
  | 0x04 => some .status
  | 0x08 => some .msgLenLo
  | 0x0C => some .msgLenHi
  | 0x10 => some (.digest 0)
  | 0x14 => some (.digest 1)
  | 0x18 => some (.digest 2)
  | 0x1C => some (.digest 3)
  | 0x20 => some (.digest 4)
  | 0x24 => some (.digest 5)
  | 0x28 => some (.digest 6)
  | 0x2C => some (.digest 7)
  | 0x30 => some (.reserved 0)
  | 0x34 => some (.reserved 1)
  | 0x38 => some (.reserved 2)
  | 0x3C => some (.reserved 3)
  | _ => none

/-! ### Bus addresses -/

/-- The base of a space on the host bus (R7, R31). -/
def spaceBase (p : Params) : Space → Nat
  | .reg => p.regBase
  | .msg => p.msgBase

/-- The size of a space in bytes (R31). -/
def spaceSize (p : Params) : Space → Nat
  | .reg => 64
  | .msg => p.msgMaxBytes

/-- The bus address of a transaction (R53). -/
def busAddress (p : Params) (t : Transaction) : Nat := spaceBase p t.space + t.offset

/-- The space and offset at a bus address; where a platform lets the two windows overlap, the register space
(DESIGN CHOICE, log 12; no step uses it). -/
def locate (p : Params) (addr : Nat) : Option (Space × Nat) :=
  if p.regBase ≤ addr ∧ addr < p.regBase + spaceSize p .reg then some (.reg, addr - p.regBase)
  else if p.msgBase ≤ addr ∧ addr < p.msgBase + spaceSize p .msg then some (.msg, addr - p.msgBase)
  else none

/-! ### The phase as an operation code -/

/-- The 3-bit code of a phase (R48). -/
def Phase.code : Phase → BitVec 3
  | .idle => 0
  | .check => 1
  | .load => 2
  | .expand => 3
  | .round => 4
  | .feed => 5
  | .assemble => 6
  | .reserved7 => 7

/-- The phase of a 3-bit code (R48). -/
def Phase.ofCode (p : BitVec 3) : Phase :=
  if p = 0#3 then .idle
  else if p = 1#3 then .check
  else if p = 2#3 then .load
  else if p = 3#3 then .expand
  else if p = 4#3 then .round
  else if p = 5#3 then .feed
  else if p = 6#3 then .assemble
  else .reserved7

/-- The operation the core performs next, selected by `PHASE` (R77). -/
def fetch (s : State) : Instr := decodePhase s.phase.code

end Sys2Proof.Machine
end

