-- ==== Sys2Proof/Machine/Flags.lean ====
section
/-! DEFINITION. The status flags and the STATUS word (R26, R47, R49). -/

namespace Sys2Proof.Machine

/-- The 4-bit code of an error (R49). -/
def ErrCode.code : ErrCode → BitVec 4
  | .none => 0
  | .lenOverflow => 1
  | .lenTooBig => 2
  | .badCmd => 3
  | .internal => 4

/-- `BUSY`: 1 exactly when `PHASE != IDLE` (R26). -/
def busy (s : State) : Bool := s.phase != .idle

/-- The word a read of STATUS returns (R47). -/
def statusWord (s : State) : Word :=
  BitVec.ofNat 32 (s.phase.code.toNat * 2 ^ 8 + s.errcode.code.toNat * 2 ^ 4 + s.err.toNat * 2 ^ 2
    + s.done.toNat * 2 ^ 1 + (busy s).toNat)

end Sys2Proof.Machine
end

