-- ==== Sys2Proof/Machine/Command.lean ====
section
/-! DEFINITION. The meanings of the commands a host delivers through CTRL (R74 to R76). -/

namespace Sys2Proof.Machine

/-- NOP: no state change, whatever `PHASE` is (R74). -/
def execNop (s : State) : Host.Outcome State Fault Refusal := .next s

/-- START: accepted when idle, ignored while busy (R75). -/
def execStart (s : State) : Host.Outcome State Fault Refusal :=
  .next (if s.phase = .idle then acceptStart s else s)

/-- Reserved commands 0x2 and 0x3 (R76). -/
def execReservedCmd2_3 (s : State) : Host.Outcome State Fault Refusal := .next (reservedCommand s)

/-- Reserved commands 0x4 to 0x7 (R76). -/
def execReservedCmd4_7 (s : State) : Host.Outcome State Fault Refusal := .next (reservedCommand s)

/-- Reserved commands 0x8 to 0xF (R76). -/
def execReservedCmd8_15 (s : State) : Host.Outcome State Fault Refusal := .next (reservedCommand s)

end Sys2Proof.Machine
end

