-- ==== Sys2Proof/Machine/Sequencer.lean ====
section
/-! DEFINITION. The meanings of the sequencer operations, one per phase (R77 to R84). Where an operand is outside the
range its rule gives, which no reachable state shows, the value the rule does not state is free and everything else
happens (log 8). -/

namespace Sys2Proof.Machine

/-- IDLE: the core takes no step and its state does not change (R77; log 7). -/
def execIdle (s : State) : Host.Outcome State Fault Refusal := .next s

/-- CHECK: validate the length, LEN_OVERFLOW first (R92), and initialise the hash state (R78). -/
def execCheck (s : State) : Host.Outcome State Fault Refusal :=
  if 2 ^ 61 ≤ s.msgLen.toNat then .next (raiseError .lenOverflow s)
  else if s.params.msgMaxBytes < s.msgLen.toNat then .next (raiseError .lenTooBig s)
  else .next { s with
    nblk := BitVec.ofNat 64 (nBlocks s.msgLen.toNat)
    blk := 0#64
    hs := romIV
    phase := .load }

/-- All bytes LOAD reads are stated by R56: the length is valid and block `BLK` is one of the message's (R60). -/
abbrev loadInRange (s : State) : Prop :=
  lengthOk s.params.msgMaxBytes s.msgLen.toNat ∧ s.blk.toNat < nBlocks s.msgLen.toNat

/-- Byte `i` of the padded message as LOAD reads it. -/
def loadByte (s : State) (i : Nat) : Byte :=
  (padByte s.msg s.params.msgMaxBytes s.msgLen.toNat i).getD (Config.freeByte s.draws i)

/-- LOAD: parse block `BLK` into `W[0..16)` and load the working registers (R79). It takes `n = MSG_LEN` from the register,
as R79 and R56 write, where R23 says that the core reads `MSG_LEN` in CHECK only (DEDUCED, log 17, safe: while busy the
register holds what CHECK read). -/
def execLoad (s : State) : Host.Outcome State Fault Refusal :=
  .next { s with
    w := replaceFirst16 s.w (loadWord (loadByte s) (64 * s.blk.toNat))
    work := Work.ofHash s.hs
    t := 16#7
    phase := .expand
    draws := if loadInRange s then s.draws else s.draws + 1 }

/-- EXPAND: compute the schedule word `W[T]` (R80). -/
def execExpand (s : State) : Host.Outcome State Fault Refusal :=
  .next { s with
    w := s.w.setIfInBounds s.t.toNat (scheduleSum
      (scheduleWord s.w s.t.toNat 2 (Config.freeWord s.draws 0))
      (scheduleWord s.w s.t.toNat 7 (Config.freeWord s.draws 1))
      (scheduleWord s.w s.t.toNat 15 (Config.freeWord s.draws 2))
      (scheduleWord s.w s.t.toNat 16 (Config.freeWord s.draws 3)))
    t := if s.t = 63#7 then 0#7 else nextIndex s.t (Config.freeIndex s.draws)
    phase := if s.t = 63#7 then .round else s.phase
    draws := if 16 ≤ s.t.toNat ∧ s.t.toNat < 64 then s.draws else s.draws + 1 }

/-- ROUND: one compression round with `K[T]` and `W[T]`, then `T + 1`, whose new value decides the phase (R81). -/
def execRound (s : State) : Host.Outcome State Fault Refusal :=
  .next { s with
    work := roundStep (romK.getD s.t.toNat (Config.freeWord s.draws 0))
      (s.w.getD s.t.toNat (Config.freeWord s.draws 1)) s.work
    t := nextIndex s.t (Config.freeIndex s.draws)
    phase := if nextIndex s.t (Config.freeIndex s.draws) = 64#7 then .feed else s.phase
    draws := if s.t.toNat < 64 then s.draws else s.draws + 1 }

/-- FEED: add `a..h` into `HS` and move to the next block; the new `BLK` decides the phase (R82). -/
def execFeed (s : State) : Host.Outcome State Fault Refusal :=
  .next { s with
    hs := feedForward s.hs s.work
    blk := nextBlock s.blk (Config.freeU64 s.draws 0)
    phase := if nextBlock s.blk (Config.freeU64 s.draws 0) < s.nblk then .load else .assemble
    draws := if s.blk = BitVec.allOnes 64 then s.draws + 1 else s.draws }

/-- ASSEMBLE: the digest is written and the hash is done (R83). -/
def execAssemble (s : State) : Host.Outcome State Fault Refusal :=
  .next { s with dout := assembleDigest s.hs, done := true, phase := .idle }

/-- The reserved phase: error INTERNAL (R84, R91). -/
def execReservedPhase7 (s : State) : Host.Outcome State Fault Refusal := .next (raiseError .internal s)

end Sys2Proof.Machine
end

