-- ==== Sys2Proof/Machine/Dispatch.lean ====
section
/-! DEFINITION. One arm per instruction of the opcode table. -/

namespace Sys2Proof.Machine

/-- The meaning of an instruction. -/
def exec (i : Instr) (s : State) : Host.Outcome State Fault Refusal :=
  match i with
  | .nop _ => Sys2Proof.Machine.execNop s
  | .start _ => Sys2Proof.Machine.execStart s
  | .reservedCmd2_3 _ _ => Sys2Proof.Machine.execReservedCmd2_3 s
  | .reservedCmd4_7 _ _ => Sys2Proof.Machine.execReservedCmd4_7 s
  | .reservedCmd8_15 _ _ => Sys2Proof.Machine.execReservedCmd8_15 s
  | .idle => Sys2Proof.Machine.execIdle s
  | .check => Sys2Proof.Machine.execCheck s
  | .load => Sys2Proof.Machine.execLoad s
  | .expand => Sys2Proof.Machine.execExpand s
  | .round => Sys2Proof.Machine.execRound s
  | .feed => Sys2Proof.Machine.execFeed s
  | .assemble => Sys2Proof.Machine.execAssemble s
  | .reservedPhase7 => Sys2Proof.Machine.execReservedPhase7 s

end Sys2Proof.Machine
end

