-- ==== Sys2Proof/Machine/HostAccess.lean ====
section
/-! DEFINITION. The host's accesses to the register and message spaces (R34 to R37): each is one atomic event (R41). -/

namespace Sys2Proof.Machine

/-- The host receives the word a read returns; the core's state does not change (R35, R41). -/
def reply (v : Word) (s : State) : State := { s with reads := v :: s.reads }

/-- A 32-bit read of a register (R35). A digest word read while `DONE = 0` is a fresh unspecified word. -/
def readReg (r : Reg) (s : State) : State :=
  match r with
  | .ctrl => reply 0 s
  | .status => reply (statusWord s) s
  | .msgLenLo => reply (msgLenLo s.msgLen) s
  | .msgLenHi => reply (msgLenHi s.msgLen) s
  | .digest i =>
    if s.done then reply (digestWord s.dout i) s
    else reply (Config.freeWord s.draws 0) { s with draws := s.draws + 1 }
  | .reserved _ => reply 0 s

/-- A write of `MSG_LEN` takes effect only when idle (R36). -/
def writeMsgLen (n : U64) (s : State) : State := if s.phase = .idle then { s with msgLen := n } else s

/-- A 32-bit write of a register (R36). A write to CTRL delivers its command, and is the only one with an effect beyond
storing. -/
def writeReg (r : Reg) (v : Word) (s : State) : Host.Outcome State Fault Refusal :=
  match r with
  | .ctrl => exec (decodeCmd v) s
  | .status => .next s
  | .msgLenLo => .next (writeMsgLen (withMsgLenLo s.msgLen v) s)
  | .msgLenHi => .next (writeMsgLen (withMsgLenHi s.msgLen v) s)
  | .digest _ => .next s
  | .reserved _ => .next s

/-- An 8-bit write of the message space takes effect only when idle (R37). -/
def writeMsg (i : Nat) (v : Byte) (s : State) : State :=
  if s.phase = .idle then { s with msg := memWrite s.msg i v } else s

/-- An access to the register space: 32 bits wide at an offset of R33, or refused (R34). -/
def regAccess (t : Transaction) (s : State) : Host.Outcome State Fault Refusal :=
  if t.width = 32 then
    match regAt t.offset with
    | none => .refused .registerAccessUndefined
    | some r =>
      match t.access with
      | .read => .next (readReg r s)
      | .write v => writeReg r v s
  else .refused .registerAccessUndefined

/-- An access to the message space: 8 bits wide below the capacity, or refused (R37). -/
def msgAccess (t : Transaction) (s : State) : Host.Outcome State Fault Refusal :=
  if t.width = 8 ∧ t.offset < s.params.msgMaxBytes then
    match t.access with
    | .read => .next (reply ((memRead s.msg t.offset).setWidth 32) s)
    | .write v => .next (writeMsg t.offset (v.setWidth 8) s)
  else .refused .messageAccessUndefined

/-- One bus transaction (R53). -/
def access (t : Transaction) (s : State) : Host.Outcome State Fault Refusal :=
  match t.space with
  | .reg => regAccess t s
  | .msg => msgAccess t s

end Sys2Proof.Machine
end

