-- ==== Sys2Proof/Machine/HostProgram.lean ====
section
/-! DEFINITION. The host's program syntax: machine operations, pseudo-operations and their bus transactions (R52, R53). -/

namespace Sys2Proof.Machine

/-- `wr32 <reg>, <word>` (R52). -/
def wr32 (r : Reg) (v : Word) : Transaction := ⟨.reg, .write v, regOffset r, 32⟩

/-- `rd32 <reg>` (R52). -/
def rd32 (r : Reg) : Transaction := ⟨.reg, .read, regOffset r, 32⟩

/-- `wr8 MSG[<i>], <byte>` (R52). -/
def wr8 (i : Nat) (v : Byte) : Transaction := ⟨.msg, .write (v.setWidth 32), i, 8⟩

/-- `rd8 MSG[<i>]` (R52). -/
def rd8 (i : Nat) : Transaction := ⟨.msg, .read, i, 8⟩

/-- `start` (R52). -/
def opStart : List HostOp := [.bus (wr32 .ctrl 0x00000001)]

/-- `nop` (R52). -/
def opNop : List HostOp := [.bus (wr32 .ctrl 0x00000000)]

/-- `set_len <n>`: the low word, then the high word (R52). -/
def opSetLen (n : U64) : List HostOp :=
  [.bus (wr32 .msgLenLo (msgLenLo n)), .bus (wr32 .msgLenHi (msgLenHi n))]

/-- `load_msg <bytes>`: byte `i` to `MSG[i]`, in order (R52). -/
def opLoadMsg (bytes : List Byte) : List HostOp := bytes.zipIdx.map (fun (v, i) => .bus (wr8 i v))

/-- `poll_idle` (R52). -/
def opPollIdle : List HostOp := [.pollIdle]

/-- `read_digest`: DIGEST0 to DIGEST7 in order (R52). -/
def opReadDigest : List HostOp := (List.finRange 8).map (fun i => .bus (rd32 (.digest i)))

end Sys2Proof.Machine
end

