-- ==== Sys2Proof/Machine/Reset.lean ====
section
/-! DEFINITION. The reset event (R97), which may fall between any two events. -/

namespace Sys2Proof.Machine

/-- A message buffer whose every byte is drawn, in canonical form. -/
def drawnMemory (byteAt : Nat → Byte) (cap : Nat) : Memory :=
  (List.range cap).filterMap (fun i => if byteAt i = unlistedByte then none else some (i, byteAt i))

/-- The reset event (R97): the control state takes the values of R30, and every register and `MSG` byte the spec leaves
unspecified is drawn (log 9). The parameters, the host agent and the interleaving are no state of the core. -/
def resetEvent (s : State) : State :=
  { s with
    hs := Vector.ofFn (fun i : Fin 8 => Config.freeWord s.draws i.val)
    work := ⟨Config.freeWord s.draws 8, Config.freeWord s.draws 9, Config.freeWord s.draws 10,
      Config.freeWord s.draws 11, Config.freeWord s.draws 12, Config.freeWord s.draws 13,
      Config.freeWord s.draws 14, Config.freeWord s.draws 15⟩
    w := Vector.ofFn (fun i : Fin 64 => Config.freeWord s.draws (16 + i.val))
    msgLen := 0#64
    phase := .idle
    t := Config.freeIndex s.draws
    blk := Config.freeU64 s.draws 0
    nblk := Config.freeU64 s.draws 1
    done := false
    err := false
    errcode := .none
    dout := Vector.ofFn (fun i : Fin 32 => Config.freeByte s.draws i.val)
    msg := drawnMemory (fun i => Config.freeByte s.draws (32 + i)) s.params.msgMaxBytes
    draws := s.draws + 1 }

end Sys2Proof.Machine
end

