-- ==== Sys2Proof/Machine/Turns.lean ====
section
/-! DEFINITION. Whose turn it is (R42, R103) and what the host does with its turn. -/

namespace Sys2Proof.Machine

/-- Who acts next: the prescribed turn, or, where none is left, the core while it is busy and the host while it is idle,
which is a weakly fair choice (R103; DESIGN CHOICE, log 5). -/
def nextTurn (s : State) : Turn :=
  match s.turns with
  | u :: _ => u
  | [] => if s.phase = .idle then .host else .core

/-- The turn is used up. -/
def takeTurn (s : State) : State := { s with turns := s.turns.tail }

/-- The host's turn: its next operation, or nothing when its program is at its end. A `poll_idle` stays where it is
while the STATUS it reads has bit 0 set (R52; log 6). -/
def hostTurn (s : State) : Host.Outcome State Fault Refusal :=
  match s.program with
  | [] => .next s
  | .bus t :: rest => access t { s with program := rest }
  | .pollIdle :: rest =>
    if (statusWord s).getLsbD 0 then access (rd32 .status) s
    else access (rd32 .status) { s with program := rest }

/-- A CMD word of a host write to CTRL placed as the next event (log 10). -/
def placeCommand (s : State) (w : Word) : State :=
  { s with program := .bus (wr32 .ctrl w) :: s.program, turns := .host :: s.turns }

/-- A phase code placed as the core's next operation (log 10). -/
def placePhase (s : State) (p : BitVec 3) : State :=
  { s with phase := Phase.ofCode p, turns := .core :: s.turns }

/-- The operation word placed so that the next step runs it; the machine fetches no instructions (R44), so this sets the
sequencer's phase or the host's next write, and the turn (log 10). -/
def placeOpWord (s : State) : OpWord → State
  | .cmd w => placeCommand s w
  | .phase p => placePhase s p

end Sys2Proof.Machine
end

