-- ==== Sys2Proof/Machine/Step.lean ====
section
/-! DEFINITION. One event of the machine: a core step, a host access or a reset (R41, R42). -/

namespace Sys2Proof.Machine

/-- One event of the interleaving. -/
def step (s : State) : Host.Outcome State Fault Refusal :=
  match nextTurn s with
  | .core => exec (fetch s) (takeTurn s)
  | .host => hostTurn (takeTurn s)
  | .reset => .next (resetEvent (takeTurn s))

/-- The state whose next step runs exactly the instruction of these bits (log 10); a bit string of neither format leaves
the state as it is. -/
def State.withFetchWord (s : State) (nbits w : Nat) : State :=
  match opWordOf nbits w with
  | .ok o => placeOpWord s o
  | .error _ => s

end Sys2Proof.Machine
end

