-- ==== Sys2Proof/Machine/Hash.lean ====
section
/-! DEFINITION. The top-level function `Hash(M)` and the functions of byte sequences it is made of (R54, R59, R63, R70,
R73), in the terms of the spec and without the machine's state. -/

namespace Sys2Proof.Machine

/-- `Pad(M)` (R54), for `|M| < 2^61`. R58 defines none for a longer sequence; this total function then takes the length
field modulo 2^64 (DESIGN CHOICE, log 18). -/
def pad (m : List Byte) : List Byte :=
  m ++ [0x80#8] ++ List.replicate (padZeros m.length) 0x00#8 ++ beBytes 8 (8 * m.length)

/-- `Block(P, b)` (R59). -/
def block (p : List Byte) (b : Nat) : List Byte := (p.drop (64 * b)).take 64

/-- `Parse(P)` (R59). -/
def parse (p : List Byte) : List (List Byte) := (List.range (p.length / 64)).map (block p)

/-- The first `16 + k` words of the schedule, from its first 16 (R63): the second loop up to `t = 15 + k`. -/
def expandWords : Nat → Vector Word 64 → Vector Word 64
  | 0, w => w
  | k + 1, w =>
    let v := expandWords k w
    v.setIfInBounds (16 + k) (scheduleSum (v.getD (14 + k) 0) (v.getD (9 + k) 0) (v.getD (1 + k) 0) (v.getD k 0))

/-- `Expand(B)` (R63). -/
def expand (b : List Byte) : Vector Word 64 :=
  expandWords 48 (replaceFirst16 (Vector.replicate 64 0) (loadWord (fun i => b.getD i 0) 0))

/-- The working registers after the first `k` rounds of R70. -/
def rounds : Nat → Vector Word 64 → Work → Work
  | 0, _, r => r
  | k + 1, w, r => roundStep (romK.getD k 0) (w.getD k 0) (rounds k w r)

/-- `Compress(S, W)` (R70). -/
def compress (hs : Vector Word 8) (w : Vector Word 64) : Vector Word 8 :=
  feedForward hs (rounds 64 w (Work.ofHash hs))

/-- The hash state after the first `k` blocks of a padded message (R73). -/
def absorb (p : List Byte) : Nat → Vector Word 8
  | 0 => romIV
  | k + 1 => compress (absorb p k) (expand (block p k))

/-- `Hash(M)` (R73), for `|M| < 2^61`; beyond, what `pad` gives (log 18). -/
def hashMessage (m : List Byte) : Vector Byte 32 := assembleDigest (absorb (pad m) ((pad m).length / 64))

end Sys2Proof.Machine
end

