-- ==== Sys2Proof/Safety.lean ====
section
/-! DEFINITION. What a safe run is: the invariant every step keeps, what the datapath holds of the hash in progress, the
number of core steps left, the accesses the spec defines, and when two states look alike to the host. -/

namespace Sys2Proof.Safety

open Sys2Proof.Machine

/-- The phases of a hash whose length CHECK has accepted. -/
abbrev hashing (s : State) : Prop := s.phase ≠ .idle ∧ s.phase ≠ .check ∧ s.phase ≠ .reserved7

/-- The message buffer is in canonical form, and lists no byte outside it (R32). -/
structure BufferOk (s : State) : Prop where
  canonical : Memory.wf s.msg
  within : Memory.within s.msg s.params.msgMaxBytes

/-- The control invariant: what R25, R27, R60 and R84 say of every state a run reaches. -/
structure Inv (s : State) : Prop where
  /-- The reserved phase is never entered (R84). -/
  notReserved : s.phase ≠ .reserved7
  /-- `ERR` and `ERRCODE` are set and cleared together (R27). -/
  errIff : s.err = true ↔ s.errcode ≠ .none
  /-- `DONE` and `ERR` never hold together (R27). -/
  notBoth : ¬(s.done = true ∧ s.err = true)
  /-- A hash in progress has neither succeeded nor failed (R75, R27). -/
  busyClear : s.phase ≠ .idle → s.done = false ∧ s.err = false
  /-- The schedule index in EXPAND (R80). -/
  expandIndex : s.phase = .expand → 16 ≤ s.t.toNat ∧ s.t.toNat ≤ 63
  /-- The round index in ROUND (R81). -/
  roundIndex : s.phase = .round → s.t.toNat ≤ 63
  /-- `T` after the last round (R81). -/
  feedIndex : s.phase = .feed ∨ s.phase = .assemble → s.t = 64
  /-- The accepted length and its block count (R78). -/
  accepted : hashing s → lengthOk s.params.msgMaxBytes s.msgLen.toNat ∧ s.nblk.toNat = nBlocks s.msgLen.toNat
  /-- The block being processed is one of the message's (R60). -/
  blockLt : hashing s → s.phase ≠ .assemble → s.blk.toNat < s.nblk.toNat
  /-- ASSEMBLE comes after the last block (R82). -/
  blocksDone : s.phase = .assemble → s.blk = s.nblk

/-- The padded message of the hash in progress (R32, R54). -/
def padded (s : State) : List Byte := pad (message s.msg s.msgLen.toNat)

/-- The schedule of the block in progress (R63, R79). -/
def scheduleNow (s : State) : Vector Word 64 := expand (block (padded s) s.blk.toNat)

/-- What the datapath holds in each phase of a hash (R79 to R82): the hash state after the blocks before this one, the
schedule words computed so far, and the working registers after the rounds done so far. -/
structure Tracks (s : State) : Prop where
  /-- `HS` is the hash state after the first `BLK` blocks, from LOAD to FEED and in ASSEMBLE. -/
  hashState : hashing s → s.hs = absorb (padded s) s.blk.toNat
  /-- In EXPAND the first `T` words of `W` are those of the block's schedule. -/
  prefixWords : s.phase = .expand → ∀ j (h : j < 64), j < s.t.toNat → s.w[j] = (scheduleNow s)[j]
  /-- In EXPAND the working registers are those LOAD copied. -/
  loaded : s.phase = .expand → s.work = Work.ofHash s.hs
  /-- In ROUND and FEED `W` is the whole schedule of the block. -/
  allWords : s.phase = .round ∨ s.phase = .feed → s.w = scheduleNow s
  /-- In ROUND and FEED the working registers are those after `T` rounds. -/
  mixed : s.phase = .round ∨ s.phase = .feed → s.work = rounds s.t.toNat (scheduleNow s) (Work.ofHash s.hs)

/-- The operations of a list, one after another, stopping at the first that does not answer a next state. -/
def execAll : List Instr → State → Host.Outcome State Fault Refusal
  | [], s => .next s
  | i :: is, s =>
    match exec i s with
    | .next t => execAll is t
    | .fault r => .fault r
    | .refused r => .refused r

/-- The number of core steps a hash in progress still takes (R85). -/
def stepsLeft (s : State) : Nat :=
  match s.phase with
  | .idle => 0
  | .check => if lengthOk s.params.msgMaxBytes s.msgLen.toNat then 2 + 114 * nBlocks s.msgLen.toNat else 1
  | .load => 114 * (s.nblk.toNat - s.blk.toNat) + 1
  | .expand => 64 - s.t.toNat + 66 + 114 * (s.nblk.toNat - s.blk.toNat - 1)
  | .round => 64 - s.t.toNat + 2 + 114 * (s.nblk.toNat - s.blk.toNat - 1)
  | .feed => 2 + 114 * (s.nblk.toNat - s.blk.toNat - 1)
  | .assemble => 1
  | .reserved7 => 1

/-- The transactions the spec defines: 32-bit aligned accesses below 0x40 in REG (R34), 8-bit accesses below
`MSG_MAX_BYTES` in MSG (R37). -/
abbrev Defined (p : Params) (t : Transaction) : Prop :=
  (t.space = .reg ∧ t.width = 32 ∧ t.offset % 4 = 0 ∧ t.offset < 0x40) ∨
  (t.space = .msg ∧ t.width = 8 ∧ t.offset < p.msgMaxBytes)

/-- Every transaction of a host program is one the spec defines. -/
def DefinedProgram (p : Params) (prog : List HostOp) : Prop := ∀ t, HostOp.bus t ∈ prog → Defined p t

/-- Two states agree on all a host can read or has prescribed: everything but the hidden registers of R29, and `DOUT`
only while it can be read. -/
structure SameVisible (s t : State) : Prop where
  msgLen : s.msgLen = t.msgLen
  phase : s.phase = t.phase
  done : s.done = t.done
  err : s.err = t.err
  errcode : s.errcode = t.errcode
  dout : s.done = true → s.dout = t.dout
  msg : s.msg = t.msg
  params : s.params = t.params
  draws : s.draws = t.draws
  program : s.program = t.program
  turns : s.turns = t.turns
  reads : s.reads = t.reads

/-- Two states agree on the hidden registers that the rest of the hash in progress reads (R29). -/
structure SameLive (s t : State) : Prop where
  position : hashing s → s.blk = t.blk ∧ s.nblk = t.nblk ∧ s.hs = t.hs
  index : s.phase = .expand ∨ s.phase = .round → s.t = t.t
  prefixWords : s.phase = .expand → ∀ j (h : j < 64), j < s.t.toNat → s.w[j] = t.w[j]
  allWords : s.phase = .round → s.w = t.w
  working : s.phase = .expand ∨ s.phase = .round ∨ s.phase = .feed → s.work = t.work

/-- Two states that no host can tell apart, now or later. -/
def Alike (s t : State) : Prop := Inv s ∧ Inv t ∧ SameVisible s t ∧ SameLive s t

end Sys2Proof.Safety
end

