-- ==== Sys2Proof/Certificates/Slice0/Obligations.lean ====
section
/-! DEFINITION. The statements for the provers, from the spec's numbered rules. -/

open Sys2Proof Sys2Proof.Machine Sys2Proof.Safety

/-! ### Encodings -/

/-- Decoding an encoded well-formed instruction gives it back, with every bit of its word (formats CMD and PHASE of
30_encoding.md; that a command carries its ignored bits is the model's choice, log 13). -/
def Obligations.DecodingInvertsEncoding : Prop :=
  ∀ i : Instr, i.wellFormed = true → decode (encode i) = i

/-- Every word of either format decodes to a well-formed instruction, whose encoding it is (a command's word comes back
whole because the instruction carries its ignored bits 31:4, the model's choice, log 13). -/
def Obligations.EncodingInvertsDecoding : Prop :=
  ∀ o : OpWord, (decode o).wellFormed = true ∧ encode (decode o) = o

/-- Decoding is total and unambiguous: every word lies in exactly one of the 13 rows, that of its instruction. -/
def Obligations.EveryWordLiesInExactlyOneRow : Prop :=
  ∀ o : OpWord, opRow (decode o) ∈ opTable ∧ ∀ r ∈ opTable, r.covers o = true ↔ r = opRow (decode o)

/-- Words written out from the encodings of R45, R46 and R48 decode to the instructions they stand for (the ignored bits
and the reserved code an instruction shows are carried by the model's choice, log 13). -/
def Obligations.WrittenOutWordsDecode : Prop :=
  decode (.cmd 0x00000000) = .nop 0 ∧ decode (.cmd 0x00000001) = .start 0 ∧
  decode (.cmd 0xFFFFFFF1) = .start 0xFFFFFFF ∧ decode (.cmd 0x00000011) = .start 0x1 ∧
  decode (.cmd 0x00000012) = .reservedCmd2_3 0x1 0x2 ∧ decode (.cmd 0x00000007) = .reservedCmd4_7 0 0x7 ∧
  decode (.cmd 0x0000000F) = .reservedCmd8_15 0 0xF ∧
  decode (.phase 0b000) = .idle ∧ decode (.phase 0b001) = .check ∧ decode (.phase 0b010) = .load ∧
  decode (.phase 0b011) = .expand ∧ decode (.phase 0b100) = .round ∧ decode (.phase 0b101) = .feed ∧
  decode (.phase 0b110) = .assemble ∧ decode (.phase 0b111) = .reservedPhase7

/-- R24, R45: the command a write to CTRL delivers is `v[3:0]`; the other bits have no effect and nothing is stored: a
read returns 0. -/
def Obligations.CommandIsTheLowFourBits : Prop :=
  (∀ (v v' : Word) (s : State), v.toNat % 16 = v'.toNat % 16 →
    access ⟨.reg, .write v, 0x00, 32⟩ s = access ⟨.reg, .write v', 0x00, 32⟩ s) ∧
  (∀ (v : Word) (s : State), access ⟨.reg, .write v, 0x00, 32⟩ s = exec (decodeCmd v) s) ∧
  (∀ s : State, access ⟨.reg, .read, 0x00, 32⟩ s = .next { s with reads := 0x00000000 :: s.reads })

/-! ### Commands -/

/-- R74: NOP is the command 0x0 and changes nothing, whatever the phase. -/
def Obligations.NopLeavesTheStateUnchanged : Prop :=
  (∀ v : Word, v.toNat % 16 = 0x0 → ∃ ign, decodeCmd v = .nop ign) ∧
  (∀ (ign : BitVec 28) (s : State), exec (.nop ign) s = .next s)

/-- R75: START is the command 0x1; when idle it clears the flags and enters CHECK, while busy it changes nothing. -/
def Obligations.StartIsAcceptedOnlyWhenIdle : Prop :=
  (∀ v : Word, v.toNat % 16 = 0x1 → ∃ ign, decodeCmd v = .start ign) ∧
  (∀ (ign : BitVec 28) (s : State), s.phase = .idle →
    exec (.start ign) s = .next { s with done := false, err := false, errcode := .none, phase := .check }) ∧
  (∀ (ign : BitVec 28) (s : State), s.phase ≠ .idle → exec (.start ign) s = .next s)

/-- R76, R90: the commands 0x2 to 0xF raise BAD_CMD, code 3, when idle, and change nothing while busy. -/
def Obligations.ReservedCommandsRaiseBadCmdOnlyWhenIdle : Prop :=
  (∀ v : Word, 0x2 ≤ v.toNat % 16 → ∃ ign cmd,
    decodeCmd v = .reservedCmd2_3 ign cmd ∨ decodeCmd v = .reservedCmd4_7 ign cmd ∨
      decodeCmd v = .reservedCmd8_15 ign cmd) ∧
  (∀ (ign : BitVec 28) (cmd : BitVec 4) (s : State), s.phase = .idle →
    let t := { s with done := false, err := true, errcode := .badCmd, phase := .idle }
    exec (.reservedCmd2_3 ign cmd) s = .next t ∧ exec (.reservedCmd4_7 ign cmd) s = .next t ∧
      exec (.reservedCmd8_15 ign cmd) s = .next t ∧ statusWord t = 0x00000034) ∧
  (∀ (ign : BitVec 28) (cmd : BitVec 4) (s : State), s.phase ≠ .idle →
    exec (.reservedCmd2_3 ign cmd) s = .next s ∧ exec (.reservedCmd4_7 ign cmd) s = .next s ∧
      exec (.reservedCmd8_15 ign cmd) s = .next s)

/-! ### Sequencer operations -/

/-- In IDLE the core's state does not change (R77; that a core turn in IDLE is a step that changes nothing is the
model's choice, log 7). -/
def Obligations.IdlePhaseChangesNothing : Prop :=
  ∀ s : State, exec .idle s = .next s ∧ (s.phase = .idle → exec (fetch s) s = .next s)

/-- R78, R88, R89: CHECK raises LEN_OVERFLOW, code 1, for `MSG_LEN >= 2^61`, else LEN_TOO_BIG, code 2, for
`MSG_LEN > MSG_MAX_BYTES`, each shown by the STATUS word it leaves, and else sets the block count, the block index, the initial hash state and the phase. -/
def Obligations.CheckValidatesTheLengthThenInitialises : Prop :=
  ∀ s : State,
    (2 ^ 61 ≤ s.msgLen.toNat →
      let t := { s with done := false, err := true, errcode := .lenOverflow, phase := .idle }
      exec .check s = .next t ∧ statusWord t = 0x00000014) ∧
    (s.msgLen.toNat < 2 ^ 61 → s.params.msgMaxBytes < s.msgLen.toNat →
      let t := { s with done := false, err := true, errcode := .lenTooBig, phase := .idle }
      exec .check s = .next t ∧ statusWord t = 0x00000024) ∧
    (s.msgLen.toNat < 2 ^ 61 → s.msgLen.toNat ≤ s.params.msgMaxBytes →
      exec .check s = .next { s with
        nblk := BitVec.ofNat 64 ((s.msgLen.toNat + 8) / 64 + 1)
        blk := 0
        hs := #v[0x6A09E667, 0xBB67AE85, 0x3C6EF372, 0xA54FF53A, 0x510E527F, 0x9B05688C, 0x1F83D9AB, 0x5BE0CD19]
        phase := .load })

/-- R79: LOAD packs the 64 bytes of block `BLK` of the padded message big-endian into `W[0..16)`, keeps the other schedule
words, copies `HS` into `a..h`, sets `T` to 16 and enters EXPAND, for an accepted length and a block of the message. -/
def Obligations.LoadPacksTheBlockAndCopiesTheHashState : Prop :=
  ∀ s : State, lengthOk s.params.msgMaxBytes s.msgLen.toNat → s.blk.toNat < nBlocks s.msgLen.toNat →
    ∃ w : Vector Word 64,
      exec .load s = .next { s with
        w := w, work := ⟨s.hs[0], s.hs[1], s.hs[2], s.hs[3], s.hs[4], s.hs[5], s.hs[6], s.hs[7]⟩
        t := 16, phase := .expand } ∧
      (∀ j (h : j < 64), j < 16 → ∃ b0 b1 b2 b3 : Byte,
        padByte s.msg s.params.msgMaxBytes s.msgLen.toNat (64 * s.blk.toNat + 4 * j) = some b0 ∧
        padByte s.msg s.params.msgMaxBytes s.msgLen.toNat (64 * s.blk.toNat + 4 * j + 1) = some b1 ∧
        padByte s.msg s.params.msgMaxBytes s.msgLen.toNat (64 * s.blk.toNat + 4 * j + 2) = some b2 ∧
        padByte s.msg s.params.msgMaxBytes s.msgLen.toNat (64 * s.blk.toNat + 4 * j + 3) = some b3 ∧
        w[j].toNat = b0.toNat * 2 ^ 24 + b1.toNat * 2 ^ 16 + b2.toNat * 2 ^ 8 + b3.toNat) ∧
      (∀ j (h : j < 64), 16 ≤ j → w[j] = s.w[j])

/-- R80: EXPAND with `16 <= T <= 63` computes `W[T]`, keeps every other word, and advances `T` or hands over to ROUND. -/
def Obligations.ExpandComputesOneScheduleWord : Prop :=
  ∀ (s : State) (h1 : 16 ≤ s.t.toNat) (h2 : s.t.toNat ≤ 63),
    exec .expand s = .next { s with
      w := s.w.set s.t.toNat (smallSigma1 s.w[s.t.toNat - 2] + s.w[s.t.toNat - 7] + smallSigma0 s.w[s.t.toNat - 15]
        + s.w[s.t.toNat - 16])
      t := if s.t.toNat + 1 = 64 then 0 else BitVec.ofNat 7 (s.t.toNat + 1)
      phase := if s.t.toNat + 1 = 64 then .round else s.phase }

/-- R69, R81: ROUND with `T <= 63` replaces `a..h` by one compression round with `K[T]` and `W[T]`, all eight from the
old values, adds 1 to `T`, and enters FEED when the new `T` is 64. -/
def Obligations.RoundMixesTheWorkingRegisters : Prop :=
  ∀ (s : State) (h : s.t.toNat ≤ 63),
    let T1 := s.work.h + bigSigma1 s.work.e + ch s.work.e s.work.f s.work.g + romK[s.t.toNat] + s.w[s.t.toNat]
    let T2 := bigSigma0 s.work.a + maj s.work.a s.work.b s.work.c
    exec .round s = .next { s with
      work := ⟨T1 + T2, s.work.a, s.work.b, s.work.c, s.work.d + T1, s.work.e, s.work.f, s.work.g⟩
      t := BitVec.ofNat 7 (s.t.toNat + 1)
      phase := if s.t.toNat + 1 = 64 then .feed else s.phase }

/-- R82: FEED adds `a..h` into `HS`, adds 1 to `BLK`, and goes to LOAD while the new `BLK` is below `NBLK` and to ASSEMBLE
otherwise. `BLK + 1` fits in 64 bits by R25. -/
def Obligations.FeedAddsAndMovesToTheNextBlock : Prop :=
  ∀ s : State, s.blk.toNat + 1 < 2 ^ 64 →
    exec .feed s = .next { s with
      hs := #v[s.hs[0] + s.work.a, s.hs[1] + s.work.b, s.hs[2] + s.work.c, s.hs[3] + s.work.d, s.hs[4] + s.work.e,
        s.hs[5] + s.work.f, s.hs[6] + s.work.g, s.hs[7] + s.work.h]
      blk := BitVec.ofNat 64 (s.blk.toNat + 1)
      phase := if s.blk.toNat + 1 < s.nblk.toNat then .load else .assemble }

/-- The derived sentences of R79, R80 and R82: a LOAD gives the first 16 words of the block's schedule, the 48 EXPAND steps
after it give the whole schedule, and the 64 ROUND steps and the FEED after those leave in `HS` the compression of that
schedule into the `HS` the LOAD found. -/
def Obligations.StepsOfABlockExpandAndCompressIt : Prop :=
  ∀ s : State, lengthOk s.params.msgMaxBytes s.msgLen.toNat → s.blk.toNat < nBlocks s.msgLen.toNat →
    (∃ t, exec .load s = .next t ∧ ∀ j (h : j < 64), j < 16 → t.w[j] = (scheduleNow s)[j]) ∧
    (∃ t, execAll (.load :: List.replicate 48 .expand) s = .next t ∧ t.w = scheduleNow s ∧ t.t = 0 ∧
      t.phase = .round) ∧
    (∃ t, execAll (.load :: (List.replicate 48 .expand ++ List.replicate 64 .round ++ [.feed])) s = .next t ∧
      t.hs = compress s.hs (scheduleNow s) ∧ t.blk.toNat = s.blk.toNat + 1)

/-- R72, R83: ASSEMBLE writes `Assemble(HS)` into `DOUT`, sets `DONE` and makes the core idle. -/
def Obligations.AssembleWritesTheDigest : Prop :=
  ∀ s : State, ∃ d : Vector Byte 32,
    exec .assemble s = .next { s with dout := d, done := true, phase := .idle } ∧
    ∀ (i j : Nat) (hi : i < 8) (hj : j < 4),
      d[4 * i + j].toNat = s.hs[i].toNat / 2 ^ (24 - 8 * j) % 2 ^ 8

/-- R84: a core step with `PHASE = 7` raises INTERNAL, code 4, and changes no datapath state. -/
def Obligations.ReservedPhaseRaisesInternal : Prop :=
  ∀ s : State,
    let t := { s with done := false, err := true, errcode := .internal, phase := .idle }
    exec .reservedPhase7 s = .next t ∧ statusWord t = 0x00000044 ∧
      (s.phase = .reserved7 → exec (fetch s) s = .next t)

/-- The model's choice for operands no rule admits (log 8): LOAD, EXPAND, ROUND and FEED answer a next state in every
state, so that no operand stops the machine, and whatever the free value, `a..h`, `T` and the phase after LOAD, the
copied registers after ROUND and the added hash state after FEED are as their rules say. -/
def Obligations.EveryOperationAnswersANextState : Prop :=
  (∀ (i : Instr) (s : State), ∃ t, exec i s = .next t) ∧
  (∀ s t : State, exec .load s = .next t → t.work = Work.ofHash s.hs ∧ t.t = 16 ∧ t.phase = .expand) ∧
  (∀ s t : State, exec .round s = .next t →
    t.work.b = s.work.a ∧ t.work.c = s.work.b ∧ t.work.d = s.work.c ∧
    t.work.f = s.work.e ∧ t.work.g = s.work.f ∧ t.work.h = s.work.g) ∧
  (∀ s t : State, exec .feed s = .next t → t.hs = feedForward s.hs s.work)

/-! ### Frames and whole-machine rules -/

/-- Which operations write which registers: the written-by sentences of 10_state.md sections 2 and 3. The message, its
length, the parameters and the host side are written by none of the 13 operations. -/
def Obligations.OperationsWriteOnlyTheirRegisters : Prop :=
  ∀ (i : Instr) (s t : State), exec i s = .next t →
    (t.hs ≠ s.hs → i = .check ∨ i = .feed) ∧
    (t.work ≠ s.work → i = .load ∨ i = .round) ∧
    (t.w ≠ s.w → i = .load ∨ i = .expand) ∧
    (t.t ≠ s.t → i = .load ∨ i = .expand ∨ i = .round) ∧
    (t.blk ≠ s.blk → i = .check ∨ i = .feed) ∧
    (t.nblk ≠ s.nblk → i = .check) ∧
    (t.dout ≠ s.dout → i = .assemble) ∧
    (i = .load ∨ i = .expand ∨ i = .round ∨ i = .feed →
      t.done = s.done ∧ t.err = s.err ∧ t.errcode = s.errcode) ∧
    t.msgLen = s.msgLen ∧ t.params = s.params ∧ t.program = s.program ∧ t.turns = s.turns ∧ t.reads = s.reads ∧
    ∀ a, memRead t.msg a = memRead s.msg a

/-- R87: an operation that enters an error sets `ERR` and a code, clears `DONE`, makes the core idle, and changes nothing
else. -/
def Obligations.ErrorEntryIsPrecise : Prop :=
  (∀ (c : ErrCode) (s : State),
    raiseError c s = { s with done := false, err := true, errcode := c, phase := .idle }) ∧
  (∀ (i : Instr) (s t : State), exec i s = .next t → t.err = true → (s.err = false ∨ t.errcode ≠ s.errcode) →
    t = { s with done := false, err := true, errcode := t.errcode, phase := .idle } ∧ t.errcode ≠ .none)

/-- The derived sentences of R84, R87 and R91: an error is raised only by CHECK, a reserved command or the reserved phase;
no step enters the reserved phase, and from another phase no step raises INTERNAL. -/
def Obligations.ErrorsComeOnlyFromTheirSources : Prop :=
  (∀ (i : Instr) (s t : State), exec i s = .next t → t.err = true → (s.err = false ∨ t.errcode ≠ s.errcode) →
    i = .check ∨ i = .reservedPhase7 ∨ ∃ ign cmd,
      i = .reservedCmd2_3 ign cmd ∨ i = .reservedCmd4_7 ign cmd ∨ i = .reservedCmd8_15 ign cmd) ∧
  (∀ s t : State, s.phase ≠ .reserved7 → step s = .next t →
    t.phase ≠ .reserved7 ∧ (t.errcode = .internal → s.errcode = .internal))

/-- ASSEMBLE is the only operation that sets `DONE` or writes `DOUT`, and what it writes is `Assemble(HS)` (46_control.md
section 3, the corner cases of ASSEMBLE). -/
def Obligations.OnlyAssembleSetsDone : Prop :=
  ∀ (i : Instr) (s t : State), exec i s = .next t → (t.done = true ∧ s.done = false) ∨ t.dout ≠ s.dout →
    i = .assemble ∧ t.dout = assembleDigest s.hs ∧ t.phase = .idle

/-- The phase leaves IDLE only by the host's START (70_reset_and_hazards.md section 2): a step from an idle state to a
busy one is a host write of the command 0x1 to CTRL. -/
def Obligations.OnlyStartLeavesIdle : Prop :=
  ∀ s t : State, step s = .next t → s.phase = .idle → t.phase ≠ .idle →
    nextTurn s = .host ∧ t.phase = .check ∧ ∃ v rest,
      s.program = .bus ⟨.reg, .write v, 0x00, 32⟩ :: rest ∧ v.toNat % 16 = 0x1

/-- A START with an unchanged rejected length fails again with the same code (60_exceptions.md section 2). -/
def Obligations.RejectedLengthFailsAgain : Prop :=
  ∀ (ign : BitVec 28) (s : State), s.phase = .idle → ¬lengthOk s.params.msgMaxBytes s.msgLen.toNat →
    ∃ s1 t s2, exec (.start ign) s = .next s1 ∧ exec .check s1 = .next t ∧ t.err = true ∧ t.phase = .idle ∧
      exec (.start ign) t = .next s2 ∧ exec .check s2 = .next t

/-! ### Host accesses -/

/-- R47: the fields of the STATUS word. -/
def Obligations.StatusWordFields : Prop :=
  ∀ s : State,
    (statusWord s).toNat = s.phase.code.toNat * 2 ^ 8 + s.errcode.code.toNat * 2 ^ 4 + s.err.toNat * 2 ^ 2
      + s.done.toNat * 2 ^ 1 + (if s.phase = .idle then 0 else 1) ∧
    (statusWord s).extractLsb' 11 21 = 0 ∧ (statusWord s).extractLsb' 8 3 = s.phase.code ∧
    (statusWord s).extractLsb' 4 4 = s.errcode.code ∧ (statusWord s)[3] = false ∧ (statusWord s)[2] = s.err ∧
    (statusWord s)[1] = s.done ∧ ((statusWord s)[0] = true ↔ s.phase ≠ .idle)

/-- What a 32-bit read returns at each offset of the register space (R35). A digest word read while `DONE = 0` is a free
value, drawn anew at every read: the unconstrained constant `Config.freeWord` at the draw count of the state, which the
read moves on (the form of a free value is the model's choice, log 1). -/
def Obligations.RegisterReadsReturnTheirValues : Prop :=
  ∀ s : State,
    access ⟨.reg, .read, 0x00, 32⟩ s = .next { s with reads := 0 :: s.reads } ∧
    access ⟨.reg, .read, 0x04, 32⟩ s = .next { s with reads := statusWord s :: s.reads } ∧
    access ⟨.reg, .read, 0x08, 32⟩ s = .next { s with reads := BitVec.ofNat 32 (s.msgLen.toNat % 2 ^ 32) :: s.reads } ∧
    access ⟨.reg, .read, 0x0C, 32⟩ s = .next { s with reads := BitVec.ofNat 32 (s.msgLen.toNat / 2 ^ 32) :: s.reads } ∧
    (∀ i (hi : i < 8), s.done = true → ∃ v : Word,
      access ⟨.reg, .read, 0x10 + 4 * i, 32⟩ s = .next { s with reads := v :: s.reads } ∧
      v.toNat = s.dout[4 * i].toNat * 2 ^ 24 + s.dout[4 * i + 1].toNat * 2 ^ 16 + s.dout[4 * i + 2].toNat * 2 ^ 8
        + s.dout[4 * i + 3].toNat) ∧
    (∀ i, i < 8 → s.done = false → access ⟨.reg, .read, 0x10 + 4 * i, 32⟩ s =
      .next { s with reads := Config.freeWord s.draws 0 :: s.reads, draws := s.draws + 1 }) ∧
    (∀ o ∈ [0x30, 0x34, 0x38, 0x3C], access ⟨.reg, .read, o, 32⟩ s = .next { s with reads := 0 :: s.reads })

/-- R36: what a 32-bit write does at each offset of the register space. -/
def Obligations.RegisterWritesTakeEffectOnlyWhereStated : Prop :=
  ∀ (s : State) (v : Word),
    access ⟨.reg, .write v, 0x00, 32⟩ s = exec (decodeCmd v) s ∧
    (∀ o ∈ [0x04, 0x30, 0x34, 0x38, 0x3C], access ⟨.reg, .write v, o, 32⟩ s = .next s) ∧
    (∀ i, i < 8 → access ⟨.reg, .write v, 0x10 + 4 * i, 32⟩ s = .next s) ∧
    (s.phase ≠ .idle → access ⟨.reg, .write v, 0x08, 32⟩ s = .next s ∧ access ⟨.reg, .write v, 0x0C, 32⟩ s = .next s) ∧
    (s.phase = .idle → access ⟨.reg, .write v, 0x08, 32⟩ s =
      .next { s with msgLen := BitVec.ofNat 64 (s.msgLen.toNat / 2 ^ 32 * 2 ^ 32 + v.toNat) }) ∧
    (s.phase = .idle → access ⟨.reg, .write v, 0x0C, 32⟩ s =
      .next { s with msgLen := BitVec.ofNat 64 (v.toNat * 2 ^ 32 + s.msgLen.toNat % 2 ^ 32) })

/-- R34: the register space takes only 32-bit accesses at 4-byte-aligned offsets below 0x40; every other access is refused
and is no step. -/
def Obligations.RegisterSpaceRefusesOtherAccesses : Prop :=
  ∀ (s : State) (a : Access) (o wd : Nat),
    (wd = 32 ∧ o % 4 = 0 ∧ o < 0x40 → ∃ t, access ⟨.reg, a, o, wd⟩ s = .next t) ∧
    (¬(wd = 32 ∧ o % 4 = 0 ∧ o < 0x40) → access ⟨.reg, a, o, wd⟩ s = .refused .registerAccessUndefined)

/-- The message space (R37) takes only 8-bit accesses below `MSG_MAX_BYTES`: a read returns the byte at any time; a write
stores it when idle, and only there, and is dropped while busy; every other access is refused.
That a read answers the byte zero-extended and a write carries it in data bits 7:0 is the model's choice (log 11), and so
is the canonical form the buffer written to is in (log 3). -/
def Obligations.MessageSpaceAccesses : Prop :=
  (∀ (s : State) (i : Nat), i < s.params.msgMaxBytes →
    access ⟨.msg, .read, i, 8⟩ s = .next { s with reads := BitVec.ofNat 32 (memRead s.msg i).toNat :: s.reads } ∧
    (∀ v : Byte, s.phase ≠ .idle → access ⟨.msg, .write (v.setWidth 32), i, 8⟩ s = .next s) ∧
    (∀ v : Byte, s.phase = .idle → Memory.wf s.msg → ∃ m,
      access ⟨.msg, .write (v.setWidth 32), i, 8⟩ s = .next { s with msg := m } ∧
      memRead m i = v ∧ ∀ a, a ≠ i → memRead m a = memRead s.msg a)) ∧
  (∀ (s : State) (a : Access) (i wd : Nat), ¬(wd = 8 ∧ i < s.params.msgMaxBytes) →
    access ⟨.msg, a, i, wd⟩ s = .refused .messageAccessUndefined)

/-- Reads have no side effects: two reads of one location with nothing between return the same value, but for a digest
word while `DONE = 0` (20_memory.md section 4). -/
def Obligations.RepeatedReadsReturnTheSameValue : Prop :=
  ∀ (sp : Space) (o wd : Nat) (s s1 s2 : State),
    access ⟨sp, .read, o, wd⟩ s = .next s1 → access ⟨sp, .read, o, wd⟩ s1 = .next s2 →
    s1 = { s with reads := s1.reads, draws := s1.draws } ∧
    (sp = .reg ∧ 0x10 ≤ o ∧ o < 0x30 ∧ s.done = false ∨
      ∃ v, s1.reads = v :: s.reads ∧ s2.reads = v :: v :: s.reads ∧ s2.draws = s.draws)

/-- While `PHASE != IDLE` no host access of the spec changes anything, as R85 says of all of them: writes to the message and
its length (R99) and to the command register (R101) leave no trace, and reads only reply (R35, R37). A reply is a word the
host receives, and a digest word read meanwhile takes a draw: fields of the model's own (logs 6 and 1). -/
def Obligations.BusyCoreIgnoresTheHost : Prop :=
  ∀ (x : Transaction) (s : State), s.phase ≠ .idle → Defined s.params x →
    ∃ t, access x s = .next t ∧ t = { s with reads := t.reads, draws := t.draws } ∧
      ∀ v, x.access = .write v → t = s

/-- Once `DONE = 1`, every digest word a host reads is that of the hash that set it, until an accepted START, a reserved
command or a reset (20_memory.md section 4). -/
def Obligations.DigestIsStableWhileDone : Prop :=
  ∀ (x : Transaction) (s t : State), s.done = true → access x s = .next t →
    (∀ v, x = ⟨.reg, .write v, 0x00, 32⟩ → v.toNat % 16 = 0x0 ∨ s.phase ≠ .idle) →
    t.done = true ∧ t.dout = s.dout ∧ t.phase = s.phase ∧
    ∀ i : Fin 8, access ⟨.reg, .read, 0x10 + 4 * i.val, 32⟩ t =
      .next { t with reads := digestWord s.dout i :: t.reads }

/-- Bus addresses identify the location: where the platform's two windows are disjoint, a transaction of the spec is found
again from its bus address (30_encoding.md section 3). -/
def Obligations.BusAddressesIdentifyTheLocation : Prop :=
  ∀ (p : Params) (x : Transaction), Defined p x →
    (p.regBase + 64 ≤ p.msgBase ∨ p.msgBase + p.msgMaxBytes ≤ p.regBase) →
    locate p (busAddress p x) = some (x.space, x.offset)

/-- Two message buffers in canonical form that read alike at every offset are equal data (the canonical form is the
model's, log 3). -/
def Obligations.CanonicalBuffersWithEqualReadsAreEqual : Prop :=
  ∀ m m' : Memory, Memory.wf m → Memory.wf m' → (∀ a, memRead m a = memRead m' a) → m = m'

/-! ### The functions of SHA-256 -/

/-- `be32` and the `k`-byte `bebytes_k` of R10, most significant byte first, and its derived sentence `be32(bebytes_4(x)) = x`. -/
def Obligations.BigEndianPackingRoundTrips : Prop :=
  (∀ x : Word, ∃ b0 b1 b2 b3, beBytes 4 x.toNat = [b0, b1, b2, b3] ∧ be32 b0 b1 b2 b3 = x) ∧
  (∀ b0 b1 b2 b3 : Byte,
    (be32 b0 b1 b2 b3).toNat = b0.toNat * 2 ^ 24 + b1.toNat * 2 ^ 16 + b2.toNat * 2 ^ 8 + b3.toNat) ∧
  (∀ k v : Nat, (beBytes k v).length = k) ∧
  (∀ (k v j : Nat) (h : j < (beBytes k v).length), (beBytes k v)[j].toNat = v / 2 ^ (8 * (k - 1 - j)) % 2 ^ 8)

/-- R13, R14: rotation and logical shift, as numbers and bit by bit. -/
def Obligations.RotationAndShiftBitByBit : Prop :=
  ∀ (x : Word) (n : Nat), n ≤ 31 →
    (rotr x n).toNat = x.toNat / 2 ^ n ||| x.toNat * 2 ^ (32 - n) % 2 ^ 32 ∧ rotr x 0 = x ∧
    (shr x n).toNat = x.toNat / 2 ^ n ∧
    ∀ i, i < 32 → (rotr x n).getLsbD i = x.getLsbD ((i + n) % 32)

/-- R67, R68: each bit of `Ch` is `y`'s where `x`'s is 1 and `z`'s where it is 0, and each bit of `Maj` is the majority of
the three; the reference repository's formula is not `Ch`. -/
def Obligations.ChooseAndMajorityBitByBit : Prop :=
  (∀ (x y z : Word) (i : Nat), (ch x y z).getLsbD i = if x.getLsbD i then y.getLsbD i else z.getLsbD i) ∧
  (∀ (x y z : Word) (i : Nat), (maj x y z).getLsbD i =
    decide (2 ≤ (x.getLsbD i).toNat + (y.getLsbD i).toNat + (z.getLsbD i).toNat)) ∧
  (∃ x y z : Word, ch x y z ≠ (x &&& y) ^^^ (x &&& z))

/-- R61, R62, R65, R66: each bit of the four sigma functions is the exclusive or of three bits of the operand; the third
term of the lower-case ones is a shift, with zero fill. -/
def Obligations.SigmaFunctionsBitByBit : Prop :=
  ∀ (x : Word) (i : Nat), i < 32 →
    (smallSigma0 x).getLsbD i = ((x.getLsbD ((i + 7) % 32) ^^ x.getLsbD ((i + 18) % 32)) ^^ x.getLsbD (i + 3)) ∧
    (smallSigma1 x).getLsbD i = ((x.getLsbD ((i + 17) % 32) ^^ x.getLsbD ((i + 19) % 32)) ^^ x.getLsbD (i + 10)) ∧
    (bigSigma0 x).getLsbD i =
      ((x.getLsbD ((i + 2) % 32) ^^ x.getLsbD ((i + 13) % 32)) ^^ x.getLsbD ((i + 22) % 32)) ∧
    (bigSigma1 x).getLsbD i =
      ((x.getLsbD ((i + 6) % 32) ^^ x.getLsbD ((i + 11) % 32)) ^^ x.getLsbD ((i + 25) % 32))

/-- `K[t]` is the first 32 bits of the fractional part of the cube root of the prime number `t`, counted from 0,
and `IV[i]` that of the square root of the prime number `i`: the integer root of the scaled prime, modulo 2^32 (what R21
and R22 say of their tables from general knowledge). -/
def Obligations.RomsAreTheRootFractionsOfThePrimes : Prop :=
  (∀ (t : Nat) (h : t < 64), ∃ r : Nat,
    r ^ 3 ≤ Nat.nth Nat.Prime t * 2 ^ 96 ∧ Nat.nth Nat.Prime t * 2 ^ 96 < (r + 1) ^ 3 ∧ romK[t].toNat = r % 2 ^ 32) ∧
  (∀ (i : Nat) (h : i < 8), ∃ r : Nat,
    r ^ 2 ≤ Nat.nth Nat.Prime i * 2 ^ 64 ∧ Nat.nth Nat.Prime i * 2 ^ 64 < (r + 1) ^ 2 ∧ romIV[i].toNat = r % 2 ^ 32)

/-- R55, with its derived sentences: the two forms of `PadLen` are equal, and `NBlocks` is its quotient by 64, at least 1 and within `NBLK`. -/
def Obligations.PaddedLengthAndBlockCount : Prop :=
  ∀ n : Nat,
    (padLen n : Int) = n + 1 + (55 - (n : Int)) % 64 + 8 ∧ padLen n = 64 * ((n + 8) / 64) + 64 ∧
    nBlocks n = padLen n / 64 ∧ nBlocks n = (n + 8) / 64 + 1 ∧ 1 ≤ nBlocks n ∧
    (n < 2 ^ 61 → nBlocks n ≤ 2 ^ 55 + 1)

/-- The derived sentence of R56: `PadByte(n, i) = Pad(MSG[0..n))[i]` for every accepted length and index of the padded
message. -/
def Obligations.PadByteIsTheByteOfThePaddedMessage : Prop :=
  ∀ (m : Memory) (cap n i : Nat), n < 2 ^ 61 → n ≤ cap → i < padLen n →
    padByte m cap n i = (pad (message m n))[i]?

/-- R56: `PadByte(n, i)` in its four cases. -/
def Obligations.PadByteInItsFourCases : Prop :=
  ∀ (m : Memory) (cap n i : Nat), n < 2 ^ 61 → n ≤ cap → i < padLen n →
    (i < n → padByte m cap n i = some (memRead m i)) ∧
    (i = n → padByte m cap n i = some 0x80) ∧
    (n < i → i < padLen n - 8 → padByte m cap n i = some 0x00) ∧
    (padLen n - 8 ≤ i → ∃ b : Byte, padByte m cap n i = some b ∧
      b.toNat = 8 * n / 2 ^ (8 * (padLen n - 1 - i)) % 2 ^ 8)

/-- The properties (a) to (f) that R57 derives for the padded message. -/
def Obligations.PaddedMessageProperties : Prop :=
  ∀ m : List Byte, m.length < 2 ^ 61 →
    (pad m).length % 64 = 0 ∧ (pad m).take m.length = m ∧ (pad m)[m.length]? = some 0x80 ∧
    (∀ i, m.length < i → i < (pad m).length - 8 → (pad m)[i]? = some 0x00) ∧
    ((pad m).drop ((pad m).length - 8)).foldl (fun acc b => acc * 2 ^ 8 + b.toNat) 0 = 8 * m.length ∧
    9 ≤ (pad m).length - m.length ∧ (pad m).length - m.length ≤ 72

/-- R59 and its derived sentence: the blocks of a padded message are 64 bytes each and their concatenation in order is the padded message; byte `k`
of block `b` of a message is `PadByte(n, 64*b + k)`. -/
def Obligations.BlocksPartitionThePaddedMessage : Prop :=
  (∀ p : List Byte, p.length % 64 = 0 →
    (parse p).flatten = p ∧ (parse p).length = p.length / 64 ∧ (∀ b ∈ parse p, b.length = 64) ∧
    ∀ b k, b < p.length / 64 → k < 64 → (parse p)[b]? = some (block p b) ∧ (block p b)[k]? = p[64 * b + k]?) ∧
  ∀ (m : Memory) (cap n b k : Nat), n < 2 ^ 61 → n ≤ cap → b < nBlocks n → k < 64 →
    (block (pad (message m n)) b)[k]? = padByte m cap n (64 * b + k)

/-- R63: the schedule of a 64-byte block: big-endian words 0 to 15, then the recurrence. -/
def Obligations.ScheduleFollowsTheRecurrence : Prop :=
  ∀ b : List Byte, b.length = 64 →
    (∀ j (h : j < 64), j < 16 → (expand b)[j].toNat =
      (b.getD (4 * j) 0).toNat * 2 ^ 24 + (b.getD (4 * j + 1) 0).toNat * 2 ^ 16 + (b.getD (4 * j + 2) 0).toNat * 2 ^ 8
        + (b.getD (4 * j + 3) 0).toNat) ∧
    (∀ t (h : t < 64), 16 ≤ t → (expand b)[t] =
      smallSigma1 (expand b)[t - 2] + (expand b)[t - 7] + smallSigma0 (expand b)[t - 15] + (expand b)[t - 16])

/-- R70: compression runs 64 rounds from the copied state, each with `K[t]` and `W[t]`, and adds the state it started
with. -/
def Obligations.CompressionIsSixtyFourRoundsAndFeedForward : Prop :=
  ∀ (hs : Vector Word 8) (w : Vector Word 64), ∃ r : Nat → Work,
    (r 0).toVector = hs ∧
    (∀ t (h : t < 64), r (t + 1) =
      let T1 := (r t).h + bigSigma1 (r t).e + ch (r t).e (r t).f (r t).g + romK[t] + w[t]
      let T2 := bigSigma0 (r t).a + maj (r t).a (r t).b (r t).c
      ⟨T1 + T2, (r t).a, (r t).b, (r t).c, (r t).d + T1, (r t).e, (r t).f, (r t).g⟩) ∧
    ∀ i (h : i < 8), (compress hs w)[i] = (r 64).toVector[i] + hs[i]

/-- R73: `Hash(M)` folds the compression over the blocks of the padded message, from `IV`, and serialises the last state. -/
def Obligations.HashFoldsTheCompressionOverTheBlocks : Prop :=
  ∀ m : List Byte, m.length < 2 ^ 61 →
    hashMessage m = assembleDigest ((parse (pad m)).foldl (fun hs b => compress hs (expand b)) romIV)

/-- The digest is the 8 words in order, each most significant byte first (R72); as R72 and R40 derive, different states
give different digests, and digest byte `j` is byte `j mod 4`, from the most significant end, of the word DIGEST`(j/4)`
reads as. -/
def Obligations.DigestSerialisesTheStateInjectively : Prop :=
  (∀ hs : Vector Word 8, (assembleDigest hs).toList = hs.toList.flatMap (fun x => beBytes 4 x.toNat)) ∧
  (∀ (hs : Vector Word 8) (i j : Nat) (hi : i < 8) (hj : j < 4),
    (assembleDigest hs)[4 * i + j].toNat = hs[i].toNat / 2 ^ (24 - 8 * j) % 2 ^ 8) ∧
  (∀ hs hs' : Vector Word 8, assembleDigest hs = assembleDigest hs' → hs = hs') ∧
  (∀ (d : Vector Byte 32) (j : Fin 32),
    d[j].toNat = (digestWord d ⟨j.val / 4, by omega⟩).toNat / 2 ^ (24 - 8 * (j.val % 4)) % 2 ^ 8)

/-! ### Steps -/

/-- On the core's turn a step is the operation its phase selects, on the state with the turn used up (46_control.md section
3; the turns are the model's, log 5). -/
def Obligations.CoreTurnRunsTheOperationOfThePhase : Prop :=
  ∀ s : State, nextTurn s = .core →
    step s = exec (decode (.phase s.phase.code)) { s with turns := s.turns.tail } ∧
    decode (.phase s.phase.code) = match s.phase with
      | .idle => .idle
      | .check => .check
      | .load => .load
      | .expand => .expand
      | .round => .round
      | .feed => .feed
      | .assemble => .assemble
      | .reserved7 => .reservedPhase7

/-- On the host's turn a step is its next transaction, on the state with the turn and the operation used up; a write to
CTRL runs the command it decodes to; a poll that reads `BUSY = 1` stays (30_encoding.md section 3; the host's program is
the model's, log 6). -/
def Obligations.HostTurnRunsTheNextTransaction : Prop :=
  ∀ s : State, nextTurn s = .host →
    (s.program = [] → step s = .next { s with turns := s.turns.tail }) ∧
    (∀ x rest, s.program = .bus x :: rest →
      step s = access x { s with turns := s.turns.tail, program := rest }) ∧
    (∀ v rest, s.program = .bus ⟨.reg, .write v, 0x00, 32⟩ :: rest →
      step s = exec (decode (.cmd v)) { s with turns := s.turns.tail, program := rest }) ∧
    (∀ rest, s.program = .pollIdle :: rest → step s = .next { s with
      turns := s.turns.tail, reads := statusWord s :: s.reads
      program := if s.phase = .idle then rest else s.program })

/-- The reset event gives the control state the values of 10_state.md section 4 and leaves the parameters and the host
alone, and so does the state after reset; a hash in progress is abandoned (the reset event's place among the turns is the
model's, logs 5 and 9). -/
def Obligations.ResetClearsTheControlState : Prop :=
  (∀ s : State, nextTurn s = .reset → ∃ t, step s = .next t ∧
    t.phase = .idle ∧ t.done = false ∧ t.err = false ∧ t.errcode = .none ∧ t.msgLen = 0 ∧ statusWord t = 0 ∧
    t.params = s.params ∧ t.program = s.program ∧ t.turns = s.turns.tail ∧ t.reads = s.reads) ∧
  State.reset.phase = .idle ∧ State.reset.done = false ∧ State.reset.err = false ∧ State.reset.errcode = .none ∧
    State.reset.msgLen = 0 ∧ statusWord State.reset = 0

/-- The three invariants hold right after reset; the datapath tracks the hash in progress, since there is none. The reset
values the spec leaves open are the model's choice: an empty buffer in canonical form (log 3), zero registers (log 2) and
the parameters (log 4). -/
def Obligations.InvariantsHoldAtReset : Prop := BufferOk State.reset ∧ Inv State.reset ∧ Tracks State.reset

/-- Every step keeps the message buffer in canonical form (the model's choice, log 3) and inside its capacity. -/
def Obligations.StepKeepsTheMessageBufferCanonical : Prop :=
  ∀ s t : State, BufferOk s → step s = .next t → BufferOk t

/-- Every step keeps the control invariant: the flags, the ranges of `T`, `BLK` and `NBLK`, and a phase that is never the
reserved one. -/
def Obligations.StepKeepsTheControlInvariant : Prop :=
  ∀ s t : State, Inv s → step s = .next t → Inv t

/-- Every step, of whichever agent, keeps the datapath at what the functions of SHA-256 give for the hash in progress (the
turns that order the agents are the model's, log 5). -/
def Obligations.StepKeepsTheDatapathOnTheHash : Prop :=
  ∀ s t : State, Inv s → Tracks s → step s = .next t → Tracks t

/-- The step that sets `DONE`, on a core turn (log 5), writes `Hash(MSG[0..MSG_LEN))`. -/
def Obligations.AssembleDeliversTheHashOfTheMessage : Prop :=
  ∀ s : State, Inv s → Tracks s → s.phase = .assemble → nextTurn s = .core →
    ∃ t, step s = .next t ∧ t.done = true ∧ t.err = false ∧ t.phase = .idle ∧
      t.dout = hashMessage (message s.msg s.msgLen.toNat)

/-- Every core step of a hash brings it one step nearer its end, and no host access does (46_control.md section 3; the
turns are the model's, log 5). -/
def Obligations.CoreStepsAreCountedAndHostAccessesAreNot : Prop :=
  (∀ s : State, Inv s → s.phase ≠ .idle → nextTurn s = .core →
    ∃ t, step s = .next t ∧ stepsLeft t + 1 = stepsLeft s) ∧
  (∀ s t : State, Inv s → s.phase ≠ .idle → nextTurn s = .host → step s = .next t →
    stepsLeft t = stepsLeft s ∧ t.phase = s.phase)

/-- R85, which the spec derives: from any idle state, after an accepted START and with no reset: a rejected length takes exactly 1 core step and
ends with its error; an accepted one takes exactly `2 + 114 * NBlocks(n)` core steps and ends idle with `DONE = 1`,
`ERR = 0` and `DOUT = Hash(MSG[0..n))`, the buffer as it stood at the START; whatever accesses of the spec the host makes
between the core's steps (the list of turns and the host's program are the model's, logs 5 and 6). -/
def Obligations.HashRunUnderEveryInterleaving : Prop :=
  ∀ (ign : BitVec 28) (s s0 : State) (us : List Turn), s.phase = .idle → exec (.start ign) s = .next s0 →
    DefinedProgram s.params s.program → .reset ∉ us → us.getLast? = some .core →
    (¬lengthOk s.params.msgMaxBytes s.msgLen.toNat → us.count .core = 1 →
      (∀ k, k < us.length → ∃ u, Host.Core.run core k { s0 with turns := us } = .next u ∧ u.phase ≠ .idle) ∧
      ∃ t, Host.Core.run core us.length { s0 with turns := us } = .next t ∧
        t.phase = .idle ∧ t.done = false ∧ t.err = true ∧
        t.errcode = (if 2 ^ 61 ≤ s.msgLen.toNat then .lenOverflow else .lenTooBig)) ∧
    (lengthOk s.params.msgMaxBytes s.msgLen.toNat → us.count .core = 2 + 114 * nBlocks s.msgLen.toNat →
      (∀ k, k < us.length → ∃ u, Host.Core.run core k { s0 with turns := us } = .next u ∧ u.phase ≠ .idle) ∧
      ∃ t, Host.Core.run core us.length { s0 with turns := us } = .next t ∧
        t.phase = .idle ∧ t.done = true ∧ t.err = false ∧ t.msg = s.msg ∧ t.msgLen = s.msgLen ∧
        t.dout = hashMessage (message s.msg s.msgLen.toNat))

/-- Progress: with no turn prescribed, a busy core is idle again after exactly the core steps left (the fair default of
the interleaving is the model's, log 5). -/
def Obligations.BusyCoreBecomesIdle : Prop :=
  ∀ s : State, Inv s → s.turns = [] → ∃ t, Host.Core.run core (stepsLeft s) s = .next t ∧ t.phase = .idle ∧
    ∀ k, k < stepsLeft s → ∃ u, Host.Core.run core k s = .next u ∧ u.phase ≠ .idle

/-- Hidden state is observable only through a completed digest (10_state.md section 3): two states that differ only in
hidden registers no step of the hash in progress reads stay so under every step, and the host reads the same words. -/
def Obligations.HiddenStateIsNotObservable : Prop :=
  ∀ s t : State, Alike s t →
    (∀ s', step s = .next s' → ∃ t', step t = .next t' ∧ Alike s' t' ∧ s'.reads = t'.reads) ∧
    (∀ r, step s = .refused r → step t = .refused r)
end

