-- ==== Sys2Proof/Laws/Memory.lean ====
section
/-! SUPPORT. The laws of the message buffer: read after write, and the canonical form every operation keeps. -/

namespace Sys2Proof.Machine

@[simp] theorem memRead_nil (i : Nat) : memRead [] i = unlistedByte := rfl

theorem memRead_cons (a : Nat) (v : Byte) (m : Memory) (i : Nat) :
    memRead ((a, v) :: m) i = if a = i then v else memRead m i := rfl

/-- Below every listed offset the buffer reads as unlisted. -/
theorem memRead_of_lt {m : Memory} {i : Nat} (h : ∀ c ∈ m, i < c.1) : memRead m i = unlistedByte := by
  induction m with
  | nil => rfl
  | cons c m ih =>
    have hc := h c (by simp)
    rw [memRead_cons, if_neg (by omega)]
    exact ih (fun d hd => h d (by simp [hd]))

/-- A read of the written offset gives the written byte. -/
theorem memRead_memWrite_same {m : Memory} (hm : Memory.wf m) (i : Nat) (v : Byte) :
    memRead (memWrite m i v) i = v := by
  induction m with
  | nil => unfold memWrite; split <;> simp_all [memRead_cons]
  | cons c m ih =>
    obtain ⟨a, x⟩ := c
    obtain ⟨hs, hd⟩ := hm
    rw [List.pairwise_cons] at hs
    have ih := ih ⟨hs.2, fun c hc => hd c (by simp [hc])⟩
    unfold memWrite
    split
    · rw [memRead_cons, if_neg (by omega), ih]
    · split
      · split
        · next h1 h2 h3 =>
          rw [memRead_of_lt (fun c hc => by have := hs.1 c hc; simp at this; omega), h3]
        · rw [memRead_cons, if_pos rfl]
      · split
        · next h1 h2 h3 =>
          rw [memRead_cons, if_neg h2,
            memRead_of_lt (fun c hc => by have := hs.1 c hc; simp at this; omega), h3]
        · rw [memRead_cons, if_pos rfl]

/-- A write leaves every other offset alone. -/
theorem memRead_memWrite_other {m : Memory} {i j : Nat} (h : j ≠ i) (v : Byte) :
    memRead (memWrite m i v) j = memRead m j := by
  induction m with
  | nil => unfold memWrite; split <;> simp_all [memRead_cons]; omega
  | cons c m ih =>
    obtain ⟨a, x⟩ := c
    unfold memWrite
    split
    · rw [memRead_cons, memRead_cons, ih]
    · split
      · next h1 h2 =>
        subst h2
        split
        · rw [memRead_cons, if_neg (by omega)]
        · rw [memRead_cons, memRead_cons, if_neg (by omega), if_neg (by omega)]
      · split
        · rfl
        · rw [memRead_cons, if_neg (by omega)]

/-- An entry after a write is an entry before it or the written one. -/
theorem mem_memWrite {m : Memory} {i : Nat} {v : Byte} {c : Host.Cell} (h : c ∈ memWrite m i v) :
    c ∈ m ∨ (c = (i, v) ∧ v ≠ unlistedByte) := by
  induction m with
  | nil => unfold memWrite at h; split at h <;> simp_all
  | cons d m ih =>
    obtain ⟨a, x⟩ := d
    unfold memWrite at h
    repeat' split at h
    · rcases List.mem_cons.1 h with h | h
      · exact .inl (by simp [h])
      · rcases ih h with h | h
        · exact .inl (by simp [h])
        · exact .inr h
    · exact .inl (by simp [h])
    · rcases List.mem_cons.1 h with h | h
      · exact .inr ⟨h, by assumption⟩
      · exact .inl (by simp [h])
    · exact .inl h
    · rcases List.mem_cons.1 h with h | h
      · exact .inr ⟨h, by assumption⟩
      · exact .inl h

/-- A write keeps the canonical form. -/
theorem memWrite_wf {m : Memory} (hm : Memory.wf m) (i : Nat) (v : Byte) : Memory.wf (memWrite m i v) := by
  refine ⟨?_, fun c hc => ?_⟩
  · induction m with
    | nil => unfold memWrite; split <;> simp
    | cons d m ih =>
      obtain ⟨a, x⟩ := d
      obtain ⟨hs, hd⟩ := hm
      have hs' := List.pairwise_cons.1 hs
      have ih := ih ⟨hs'.2, fun c hc => hd c (by simp [hc])⟩
      unfold memWrite
      repeat' split
      · refine List.pairwise_cons.2 ⟨fun c hc => ?_, ih⟩
        rcases mem_memWrite hc with hc | ⟨rfl, -⟩
        · exact hs'.1 c hc
        · assumption
      · exact hs'.2
      · next h1 h2 h3 =>
        exact List.pairwise_cons.2 ⟨fun c hc => by have := hs'.1 c hc; simp at this ⊢; omega, hs'.2⟩
      · exact hs
      · next h1 h2 h3 =>
        refine List.pairwise_cons.2 ⟨fun c hc => ?_, hs⟩
        rcases List.mem_cons.1 hc with rfl | hc
        · simp; omega
        · have := hs'.1 c hc; simp at this ⊢; omega
  · rcases mem_memWrite hc with hc | ⟨rfl, hv⟩
    · exact hm.2 c hc
    · exact hv

/-- A write below the capacity keeps every entry below it. -/
theorem memWrite_within {m : Memory} {cap i : Nat} (hm : Memory.within m cap) (hi : i < cap) (v : Byte) :
    Memory.within (memWrite m i v) cap := fun c hc => by
  rcases mem_memWrite hc with hc | ⟨rfl, -⟩
  · exact hm c hc
  · exact hi

/-- A drawn buffer is in canonical form. -/
theorem drawnMemory_wf (f : Nat → Byte) (cap : Nat) : Memory.wf (drawnMemory f cap) := by
  refine ⟨?_, fun c hc => ?_⟩
  · unfold drawnMemory
    refine List.Pairwise.filterMap _ (R := (· < ·)) (fun a b hab c hc d hd => ?_) List.pairwise_lt_range
    split at hc <;> split at hd <;> simp_all
    subst hc hd; exact hab
  · obtain ⟨i, -, hi⟩ := List.mem_filterMap.1 hc
    split at hi <;> simp_all
    subst hi; assumption

/-- A drawn buffer lists nothing at or above the capacity. -/
theorem drawnMemory_within (f : Nat → Byte) (cap : Nat) : Memory.within (drawnMemory f cap) cap := fun c hc => by
  obtain ⟨i, hr, hi⟩ := List.mem_filterMap.1 hc
  split at hi <;> simp_all
  subst hi; exact hr

/-- The message a length selects, byte by byte. -/
theorem message_getElem {m : Memory} {n i : Nat} (h : i < (message m n).length) :
    (message m n)[i] = memRead m i := by simp [message]

@[simp] theorem message_length (m : Memory) (n : Nat) : (message m n).length = n := by simp [message]

end Sys2Proof.Machine
end

