-- ==== Sys2Proof/Laws/Ops.lean ====
section
/-! SUPPORT. One lemma per shared operation of the datapath: padding arithmetic, padded bytes, operand reads, indices and
vector updates. -/

namespace Sys2Proof.Machine

theorem padZeros_lt (n : Nat) : padZeros n < 64 := by unfold padZeros; omega

/-- `PadLen(n)` is a multiple of 64 (R55). -/
theorem padLen_eq (n : Nat) : padLen n = 64 * ((n + 8) / 64) + 64 := by unfold padLen padZeros; omega

theorem nBlocks_eq (n : Nat) : nBlocks n = (n + 8) / 64 + 1 := by unfold nBlocks; rw [padLen_eq]; omega

theorem padLen_eq_nBlocks (n : Nat) : padLen n = 64 * nBlocks n := by rw [padLen_eq, nBlocks_eq]; omega

/-- The block count of an accepted length fits in `NBLK`. -/
theorem nBlocks_toNat {n : Nat} (h : n < 2 ^ 61) : (BitVec.ofNat 64 (nBlocks n)).toNat = nBlocks n := by
  rw [BitVec.toNat_ofNat, nBlocks_eq, Nat.mod_eq_of_lt (by omega)]

/-- In range, `PadByte` states a byte. -/
theorem padByte_isSome {m : Memory} {cap n i : Nat} (h : lengthOk cap n) (hi : i < padLen n) :
    (padByte m cap n i).isSome := by unfold padByte; rw [if_pos ⟨h, hi⟩]; rfl

theorem beBytes_length (k v : Nat) : (beBytes k v).length = k := by simp [beBytes]

theorem pad_length (m : List Byte) : (pad m).length = padLen m.length := by
  simp [pad, padLen, beBytes_length]; omega

/-- A schedule word that exists is read, not drawn. -/
theorem scheduleWord_eq {w : Vector Word 64} {t back : Nat} {free : Word} (h1 : back ≤ t) (h2 : t - back < 64) :
    scheduleWord w t back free = w[t - back] := by
  unfold scheduleWord; rw [if_pos h1]; simp [Vector.getD, h2]

theorem getD_eq {n : Nat} {w : Vector Word n} {t : Nat} {free : Word} (h : t < n) : w.getD t free = w[t] := by
  simp [Vector.getD, h]

theorem nextIndex_eq {t free : Index} (h : t.toNat < 127) : nextIndex t free = t + 1#7 :=
  if_neg (by rintro rfl; simp at h)

theorem nextIndex_toNat {t free : Index} (h : t.toNat < 127) : (nextIndex t free).toNat = t.toNat + 1 := by
  rw [nextIndex_eq h, BitVec.toNat_add]; simp; omega

theorem nextBlock_eq {b free : U64} (h : b ≠ BitVec.allOnes 64) : nextBlock b free = b + 1#64 := if_neg h

theorem nextBlock_toNat {b free : U64} (h : b.toNat < 2 ^ 64 - 1) : (nextBlock b free).toNat = b.toNat + 1 := by
  rw [nextBlock_eq (by rintro rfl; simp at h), BitVec.toNat_add]; simp; omega

theorem replaceFirst16_getElem (w : Vector Word 64) (f : Nat → Word) (j : Nat) (h : j < 64) :
    (replaceFirst16 w f)[j] = if j < 16 then f j else w[j] := by simp [replaceFirst16]

theorem feedForward_getElem (hs : Vector Word 8) (r : Work) (i : Nat) (h : i < 8) :
    (feedForward hs r)[i] = hs[i] + r.toVector[i] := by interval_cases i <;> rfl

end Sys2Proof.Machine
end

