-- ==== Sys2Proof/Laws/State.lean ====
section
/-! SUPPORT. One lemma per field per update of the state, so that no proof unfolds a record update. -/

namespace Sys2Proof.Machine

/-! ### raiseError -/

@[simp] theorem raiseError_hs (code : ErrCode) (s : State) : (raiseError code s).hs = s.hs := rfl
@[simp] theorem raiseError_work (code : ErrCode) (s : State) : (raiseError code s).work = s.work := rfl
@[simp] theorem raiseError_w (code : ErrCode) (s : State) : (raiseError code s).w = s.w := rfl
@[simp] theorem raiseError_msgLen (code : ErrCode) (s : State) : (raiseError code s).msgLen = s.msgLen := rfl
@[simp] theorem raiseError_phase (code : ErrCode) (s : State) : (raiseError code s).phase = .idle := rfl
@[simp] theorem raiseError_t (code : ErrCode) (s : State) : (raiseError code s).t = s.t := rfl
@[simp] theorem raiseError_blk (code : ErrCode) (s : State) : (raiseError code s).blk = s.blk := rfl
@[simp] theorem raiseError_nblk (code : ErrCode) (s : State) : (raiseError code s).nblk = s.nblk := rfl
@[simp] theorem raiseError_done (code : ErrCode) (s : State) : (raiseError code s).done = false := rfl
@[simp] theorem raiseError_err (code : ErrCode) (s : State) : (raiseError code s).err = true := rfl
@[simp] theorem raiseError_errcode (code : ErrCode) (s : State) : (raiseError code s).errcode = code := rfl
@[simp] theorem raiseError_dout (code : ErrCode) (s : State) : (raiseError code s).dout = s.dout := rfl
@[simp] theorem raiseError_msg (code : ErrCode) (s : State) : (raiseError code s).msg = s.msg := rfl
@[simp] theorem raiseError_params (code : ErrCode) (s : State) : (raiseError code s).params = s.params := rfl
@[simp] theorem raiseError_draws (code : ErrCode) (s : State) : (raiseError code s).draws = s.draws := rfl
@[simp] theorem raiseError_program (code : ErrCode) (s : State) : (raiseError code s).program = s.program := rfl
@[simp] theorem raiseError_turns (code : ErrCode) (s : State) : (raiseError code s).turns = s.turns := rfl
@[simp] theorem raiseError_reads (code : ErrCode) (s : State) : (raiseError code s).reads = s.reads := rfl

/-- The STATUS word an error leaves: its code and `ERR`, nothing else (R47, R87). -/
theorem raiseError_statusWord (code : ErrCode) (s : State) :
    statusWord (raiseError code s) = BitVec.ofNat 32 (code.code.toNat * 2 ^ 4 + 2 ^ 2) := by
  cases code <;> simp [statusWord, ErrCode.code, Phase.code, busy]

/-! ### acceptStart -/

@[simp] theorem acceptStart_hs (s : State) : (acceptStart s).hs = s.hs := rfl
@[simp] theorem acceptStart_work (s : State) : (acceptStart s).work = s.work := rfl
@[simp] theorem acceptStart_w (s : State) : (acceptStart s).w = s.w := rfl
@[simp] theorem acceptStart_msgLen (s : State) : (acceptStart s).msgLen = s.msgLen := rfl
@[simp] theorem acceptStart_phase (s : State) : (acceptStart s).phase = .check := rfl
@[simp] theorem acceptStart_t (s : State) : (acceptStart s).t = s.t := rfl
@[simp] theorem acceptStart_blk (s : State) : (acceptStart s).blk = s.blk := rfl
@[simp] theorem acceptStart_nblk (s : State) : (acceptStart s).nblk = s.nblk := rfl
@[simp] theorem acceptStart_done (s : State) : (acceptStart s).done = false := rfl
@[simp] theorem acceptStart_err (s : State) : (acceptStart s).err = false := rfl
@[simp] theorem acceptStart_errcode (s : State) : (acceptStart s).errcode = .none := rfl
@[simp] theorem acceptStart_dout (s : State) : (acceptStart s).dout = s.dout := rfl
@[simp] theorem acceptStart_msg (s : State) : (acceptStart s).msg = s.msg := rfl
@[simp] theorem acceptStart_params (s : State) : (acceptStart s).params = s.params := rfl
@[simp] theorem acceptStart_draws (s : State) : (acceptStart s).draws = s.draws := rfl
@[simp] theorem acceptStart_program (s : State) : (acceptStart s).program = s.program := rfl
@[simp] theorem acceptStart_turns (s : State) : (acceptStart s).turns = s.turns := rfl
@[simp] theorem acceptStart_reads (s : State) : (acceptStart s).reads = s.reads := rfl

/-! ### reply -/

@[simp] theorem reply_hs (v : Word) (s : State) : (reply v s).hs = s.hs := rfl
@[simp] theorem reply_work (v : Word) (s : State) : (reply v s).work = s.work := rfl
@[simp] theorem reply_w (v : Word) (s : State) : (reply v s).w = s.w := rfl
@[simp] theorem reply_msgLen (v : Word) (s : State) : (reply v s).msgLen = s.msgLen := rfl
@[simp] theorem reply_phase (v : Word) (s : State) : (reply v s).phase = s.phase := rfl
@[simp] theorem reply_t (v : Word) (s : State) : (reply v s).t = s.t := rfl
@[simp] theorem reply_blk (v : Word) (s : State) : (reply v s).blk = s.blk := rfl
@[simp] theorem reply_nblk (v : Word) (s : State) : (reply v s).nblk = s.nblk := rfl
@[simp] theorem reply_done (v : Word) (s : State) : (reply v s).done = s.done := rfl
@[simp] theorem reply_err (v : Word) (s : State) : (reply v s).err = s.err := rfl
@[simp] theorem reply_errcode (v : Word) (s : State) : (reply v s).errcode = s.errcode := rfl
@[simp] theorem reply_dout (v : Word) (s : State) : (reply v s).dout = s.dout := rfl
@[simp] theorem reply_msg (v : Word) (s : State) : (reply v s).msg = s.msg := rfl
@[simp] theorem reply_params (v : Word) (s : State) : (reply v s).params = s.params := rfl
@[simp] theorem reply_draws (v : Word) (s : State) : (reply v s).draws = s.draws := rfl
@[simp] theorem reply_program (v : Word) (s : State) : (reply v s).program = s.program := rfl
@[simp] theorem reply_turns (v : Word) (s : State) : (reply v s).turns = s.turns := rfl
@[simp] theorem reply_reads (v : Word) (s : State) : (reply v s).reads = v :: s.reads := rfl

/-! ### takeTurn -/

@[simp] theorem takeTurn_hs (s : State) : (takeTurn s).hs = s.hs := rfl
@[simp] theorem takeTurn_work (s : State) : (takeTurn s).work = s.work := rfl
@[simp] theorem takeTurn_w (s : State) : (takeTurn s).w = s.w := rfl
@[simp] theorem takeTurn_msgLen (s : State) : (takeTurn s).msgLen = s.msgLen := rfl
@[simp] theorem takeTurn_phase (s : State) : (takeTurn s).phase = s.phase := rfl
@[simp] theorem takeTurn_t (s : State) : (takeTurn s).t = s.t := rfl
@[simp] theorem takeTurn_blk (s : State) : (takeTurn s).blk = s.blk := rfl
@[simp] theorem takeTurn_nblk (s : State) : (takeTurn s).nblk = s.nblk := rfl
@[simp] theorem takeTurn_done (s : State) : (takeTurn s).done = s.done := rfl
@[simp] theorem takeTurn_err (s : State) : (takeTurn s).err = s.err := rfl
@[simp] theorem takeTurn_errcode (s : State) : (takeTurn s).errcode = s.errcode := rfl
@[simp] theorem takeTurn_dout (s : State) : (takeTurn s).dout = s.dout := rfl
@[simp] theorem takeTurn_msg (s : State) : (takeTurn s).msg = s.msg := rfl
@[simp] theorem takeTurn_params (s : State) : (takeTurn s).params = s.params := rfl
@[simp] theorem takeTurn_draws (s : State) : (takeTurn s).draws = s.draws := rfl
@[simp] theorem takeTurn_program (s : State) : (takeTurn s).program = s.program := rfl
@[simp] theorem takeTurn_turns (s : State) : (takeTurn s).turns = s.turns.tail := rfl
@[simp] theorem takeTurn_reads (s : State) : (takeTurn s).reads = s.reads := rfl

/-! ### placeCommand -/

@[simp] theorem placeCommand_hs (s : State) (v : Word) : (placeCommand s v).hs = s.hs := rfl
@[simp] theorem placeCommand_work (s : State) (v : Word) : (placeCommand s v).work = s.work := rfl
@[simp] theorem placeCommand_w (s : State) (v : Word) : (placeCommand s v).w = s.w := rfl
@[simp] theorem placeCommand_msgLen (s : State) (v : Word) : (placeCommand s v).msgLen = s.msgLen := rfl
@[simp] theorem placeCommand_phase (s : State) (v : Word) : (placeCommand s v).phase = s.phase := rfl
@[simp] theorem placeCommand_t (s : State) (v : Word) : (placeCommand s v).t = s.t := rfl
@[simp] theorem placeCommand_blk (s : State) (v : Word) : (placeCommand s v).blk = s.blk := rfl
@[simp] theorem placeCommand_nblk (s : State) (v : Word) : (placeCommand s v).nblk = s.nblk := rfl
@[simp] theorem placeCommand_done (s : State) (v : Word) : (placeCommand s v).done = s.done := rfl
@[simp] theorem placeCommand_err (s : State) (v : Word) : (placeCommand s v).err = s.err := rfl
@[simp] theorem placeCommand_errcode (s : State) (v : Word) : (placeCommand s v).errcode = s.errcode := rfl
@[simp] theorem placeCommand_dout (s : State) (v : Word) : (placeCommand s v).dout = s.dout := rfl
@[simp] theorem placeCommand_msg (s : State) (v : Word) : (placeCommand s v).msg = s.msg := rfl
@[simp] theorem placeCommand_params (s : State) (v : Word) : (placeCommand s v).params = s.params := rfl
@[simp] theorem placeCommand_draws (s : State) (v : Word) : (placeCommand s v).draws = s.draws := rfl
@[simp] theorem placeCommand_program (s : State) (v : Word) : (placeCommand s v).program = .bus (wr32 .ctrl v) :: s.program := rfl
@[simp] theorem placeCommand_turns (s : State) (v : Word) : (placeCommand s v).turns = .host :: s.turns := rfl
@[simp] theorem placeCommand_reads (s : State) (v : Word) : (placeCommand s v).reads = s.reads := rfl

/-! ### placePhase -/

@[simp] theorem placePhase_hs (s : State) (p : BitVec 3) : (placePhase s p).hs = s.hs := rfl
@[simp] theorem placePhase_work (s : State) (p : BitVec 3) : (placePhase s p).work = s.work := rfl
@[simp] theorem placePhase_w (s : State) (p : BitVec 3) : (placePhase s p).w = s.w := rfl
@[simp] theorem placePhase_msgLen (s : State) (p : BitVec 3) : (placePhase s p).msgLen = s.msgLen := rfl
@[simp] theorem placePhase_phase (s : State) (p : BitVec 3) : (placePhase s p).phase = Phase.ofCode p := rfl
@[simp] theorem placePhase_t (s : State) (p : BitVec 3) : (placePhase s p).t = s.t := rfl
@[simp] theorem placePhase_blk (s : State) (p : BitVec 3) : (placePhase s p).blk = s.blk := rfl
@[simp] theorem placePhase_nblk (s : State) (p : BitVec 3) : (placePhase s p).nblk = s.nblk := rfl
@[simp] theorem placePhase_done (s : State) (p : BitVec 3) : (placePhase s p).done = s.done := rfl
@[simp] theorem placePhase_err (s : State) (p : BitVec 3) : (placePhase s p).err = s.err := rfl
@[simp] theorem placePhase_errcode (s : State) (p : BitVec 3) : (placePhase s p).errcode = s.errcode := rfl
@[simp] theorem placePhase_dout (s : State) (p : BitVec 3) : (placePhase s p).dout = s.dout := rfl
@[simp] theorem placePhase_msg (s : State) (p : BitVec 3) : (placePhase s p).msg = s.msg := rfl
@[simp] theorem placePhase_params (s : State) (p : BitVec 3) : (placePhase s p).params = s.params := rfl
@[simp] theorem placePhase_draws (s : State) (p : BitVec 3) : (placePhase s p).draws = s.draws := rfl
@[simp] theorem placePhase_program (s : State) (p : BitVec 3) : (placePhase s p).program = s.program := rfl
@[simp] theorem placePhase_turns (s : State) (p : BitVec 3) : (placePhase s p).turns = .core :: s.turns := rfl
@[simp] theorem placePhase_reads (s : State) (p : BitVec 3) : (placePhase s p).reads = s.reads := rfl

/-! ### reservedCommand -/

@[simp] theorem reservedCommand_hs (s : State) : (reservedCommand s).hs = s.hs := by unfold reservedCommand; split <;> rfl
@[simp] theorem reservedCommand_work (s : State) : (reservedCommand s).work = s.work := by unfold reservedCommand; split <;> rfl
@[simp] theorem reservedCommand_w (s : State) : (reservedCommand s).w = s.w := by unfold reservedCommand; split <;> rfl
@[simp] theorem reservedCommand_msgLen (s : State) : (reservedCommand s).msgLen = s.msgLen := by unfold reservedCommand; split <;> rfl
@[simp] theorem reservedCommand_t (s : State) : (reservedCommand s).t = s.t := by unfold reservedCommand; split <;> rfl
@[simp] theorem reservedCommand_blk (s : State) : (reservedCommand s).blk = s.blk := by unfold reservedCommand; split <;> rfl
@[simp] theorem reservedCommand_nblk (s : State) : (reservedCommand s).nblk = s.nblk := by unfold reservedCommand; split <;> rfl
@[simp] theorem reservedCommand_dout (s : State) : (reservedCommand s).dout = s.dout := by unfold reservedCommand; split <;> rfl
@[simp] theorem reservedCommand_msg (s : State) : (reservedCommand s).msg = s.msg := by unfold reservedCommand; split <;> rfl
@[simp] theorem reservedCommand_params (s : State) : (reservedCommand s).params = s.params := by unfold reservedCommand; split <;> rfl
@[simp] theorem reservedCommand_draws (s : State) : (reservedCommand s).draws = s.draws := by unfold reservedCommand; split <;> rfl
@[simp] theorem reservedCommand_program (s : State) : (reservedCommand s).program = s.program := by unfold reservedCommand; split <;> rfl
@[simp] theorem reservedCommand_turns (s : State) : (reservedCommand s).turns = s.turns := by unfold reservedCommand; split <;> rfl
@[simp] theorem reservedCommand_reads (s : State) : (reservedCommand s).reads = s.reads := by unfold reservedCommand; split <;> rfl

/-! ### writeMsgLen -/

@[simp] theorem writeMsgLen_hs (n : U64) (s : State) : (writeMsgLen n s).hs = s.hs := by unfold writeMsgLen; split <;> rfl
@[simp] theorem writeMsgLen_work (n : U64) (s : State) : (writeMsgLen n s).work = s.work := by unfold writeMsgLen; split <;> rfl
@[simp] theorem writeMsgLen_w (n : U64) (s : State) : (writeMsgLen n s).w = s.w := by unfold writeMsgLen; split <;> rfl
@[simp] theorem writeMsgLen_phase (n : U64) (s : State) : (writeMsgLen n s).phase = s.phase := by unfold writeMsgLen; split <;> rfl
@[simp] theorem writeMsgLen_t (n : U64) (s : State) : (writeMsgLen n s).t = s.t := by unfold writeMsgLen; split <;> rfl
@[simp] theorem writeMsgLen_blk (n : U64) (s : State) : (writeMsgLen n s).blk = s.blk := by unfold writeMsgLen; split <;> rfl
@[simp] theorem writeMsgLen_nblk (n : U64) (s : State) : (writeMsgLen n s).nblk = s.nblk := by unfold writeMsgLen; split <;> rfl
@[simp] theorem writeMsgLen_done (n : U64) (s : State) : (writeMsgLen n s).done = s.done := by unfold writeMsgLen; split <;> rfl
@[simp] theorem writeMsgLen_err (n : U64) (s : State) : (writeMsgLen n s).err = s.err := by unfold writeMsgLen; split <;> rfl
@[simp] theorem writeMsgLen_errcode (n : U64) (s : State) : (writeMsgLen n s).errcode = s.errcode := by unfold writeMsgLen; split <;> rfl
@[simp] theorem writeMsgLen_dout (n : U64) (s : State) : (writeMsgLen n s).dout = s.dout := by unfold writeMsgLen; split <;> rfl
@[simp] theorem writeMsgLen_msg (n : U64) (s : State) : (writeMsgLen n s).msg = s.msg := by unfold writeMsgLen; split <;> rfl
@[simp] theorem writeMsgLen_params (n : U64) (s : State) : (writeMsgLen n s).params = s.params := by unfold writeMsgLen; split <;> rfl
@[simp] theorem writeMsgLen_draws (n : U64) (s : State) : (writeMsgLen n s).draws = s.draws := by unfold writeMsgLen; split <;> rfl
@[simp] theorem writeMsgLen_program (n : U64) (s : State) : (writeMsgLen n s).program = s.program := by unfold writeMsgLen; split <;> rfl
@[simp] theorem writeMsgLen_turns (n : U64) (s : State) : (writeMsgLen n s).turns = s.turns := by unfold writeMsgLen; split <;> rfl
@[simp] theorem writeMsgLen_reads (n : U64) (s : State) : (writeMsgLen n s).reads = s.reads := by unfold writeMsgLen; split <;> rfl

/-! ### writeMsg -/

@[simp] theorem writeMsg_hs (i : Nat) (v : Byte) (s : State) : (writeMsg i v s).hs = s.hs := by unfold writeMsg; split <;> rfl
@[simp] theorem writeMsg_work (i : Nat) (v : Byte) (s : State) : (writeMsg i v s).work = s.work := by unfold writeMsg; split <;> rfl
@[simp] theorem writeMsg_w (i : Nat) (v : Byte) (s : State) : (writeMsg i v s).w = s.w := by unfold writeMsg; split <;> rfl
@[simp] theorem writeMsg_msgLen (i : Nat) (v : Byte) (s : State) : (writeMsg i v s).msgLen = s.msgLen := by unfold writeMsg; split <;> rfl
@[simp] theorem writeMsg_phase (i : Nat) (v : Byte) (s : State) : (writeMsg i v s).phase = s.phase := by unfold writeMsg; split <;> rfl
@[simp] theorem writeMsg_t (i : Nat) (v : Byte) (s : State) : (writeMsg i v s).t = s.t := by unfold writeMsg; split <;> rfl
@[simp] theorem writeMsg_blk (i : Nat) (v : Byte) (s : State) : (writeMsg i v s).blk = s.blk := by unfold writeMsg; split <;> rfl
@[simp] theorem writeMsg_nblk (i : Nat) (v : Byte) (s : State) : (writeMsg i v s).nblk = s.nblk := by unfold writeMsg; split <;> rfl
@[simp] theorem writeMsg_done (i : Nat) (v : Byte) (s : State) : (writeMsg i v s).done = s.done := by unfold writeMsg; split <;> rfl
@[simp] theorem writeMsg_err (i : Nat) (v : Byte) (s : State) : (writeMsg i v s).err = s.err := by unfold writeMsg; split <;> rfl
@[simp] theorem writeMsg_errcode (i : Nat) (v : Byte) (s : State) : (writeMsg i v s).errcode = s.errcode := by unfold writeMsg; split <;> rfl
@[simp] theorem writeMsg_dout (i : Nat) (v : Byte) (s : State) : (writeMsg i v s).dout = s.dout := by unfold writeMsg; split <;> rfl
@[simp] theorem writeMsg_params (i : Nat) (v : Byte) (s : State) : (writeMsg i v s).params = s.params := by unfold writeMsg; split <;> rfl
@[simp] theorem writeMsg_draws (i : Nat) (v : Byte) (s : State) : (writeMsg i v s).draws = s.draws := by unfold writeMsg; split <;> rfl
@[simp] theorem writeMsg_program (i : Nat) (v : Byte) (s : State) : (writeMsg i v s).program = s.program := by unfold writeMsg; split <;> rfl
@[simp] theorem writeMsg_turns (i : Nat) (v : Byte) (s : State) : (writeMsg i v s).turns = s.turns := by unfold writeMsg; split <;> rfl
@[simp] theorem writeMsg_reads (i : Nat) (v : Byte) (s : State) : (writeMsg i v s).reads = s.reads := by unfold writeMsg; split <;> rfl

/-! ### resetEvent: the fields that are not drawn -/

@[simp] theorem resetEvent_msgLen (s : State) : (resetEvent s).msgLen = 0#64 := rfl
@[simp] theorem resetEvent_phase (s : State) : (resetEvent s).phase = .idle := rfl
@[simp] theorem resetEvent_done (s : State) : (resetEvent s).done = false := rfl
@[simp] theorem resetEvent_err (s : State) : (resetEvent s).err = false := rfl
@[simp] theorem resetEvent_errcode (s : State) : (resetEvent s).errcode = .none := rfl
@[simp] theorem resetEvent_params (s : State) : (resetEvent s).params = s.params := rfl
@[simp] theorem resetEvent_draws (s : State) : (resetEvent s).draws = s.draws + 1 := rfl
@[simp] theorem resetEvent_program (s : State) : (resetEvent s).program = s.program := rfl
@[simp] theorem resetEvent_turns (s : State) : (resetEvent s).turns = s.turns := rfl
@[simp] theorem resetEvent_reads (s : State) : (resetEvent s).reads = s.reads := rfl

/-! ### the two conditional updates at their phases -/

theorem reservedCommand_idle {s : State} (h : s.phase = .idle) : reservedCommand s = raiseError .badCmd s := if_pos h

theorem reservedCommand_busy {s : State} (h : s.phase ≠ .idle) : reservedCommand s = s := if_neg h

theorem writeMsgLen_idle {n : U64} {s : State} (h : s.phase = .idle) : writeMsgLen n s = { s with msgLen := n } :=
  if_pos h

theorem writeMsgLen_busy {n : U64} {s : State} (h : s.phase ≠ .idle) : writeMsgLen n s = s := if_neg h

theorem writeMsg_idle {i : Nat} {v : Byte} {s : State} (h : s.phase = .idle) :
    writeMsg i v s = { s with msg := memWrite s.msg i v } := if_pos h

theorem writeMsg_busy {i : Nat} {v : Byte} {s : State} (h : s.phase ≠ .idle) : writeMsg i v s = s := if_neg h

end Sys2Proof.Machine
end

