-- ==== Sys2Proof/Laws/Exec.lean ====
section
/-! SUPPORT. What each meaning can do, said once: the cases of CHECK, and the normal form of LOAD, EXPAND, ROUND and FEED
on the operands their rules name. -/

namespace Sys2Proof.Machine

/-- CHECK accepts the length, or enters one of two errors. -/
theorem execCheck_cases (s : State) :
    (lengthOk s.params.msgMaxBytes s.msgLen.toNat ∧
      execCheck s = .next { s with nblk := BitVec.ofNat 64 (nBlocks s.msgLen.toNat), blk := 0#64, hs := romIV, phase := .load }) ∨
    (¬lengthOk s.params.msgMaxBytes s.msgLen.toNat ∧
      (execCheck s = .next (raiseError .lenOverflow s) ∨ execCheck s = .next (raiseError .lenTooBig s))) := by
  unfold execCheck
  split
  · exact .inr ⟨by unfold lengthOk; omega, .inl rfl⟩
  · split
    · exact .inr ⟨by unfold lengthOk; omega, .inr rfl⟩
    · exact .inl ⟨⟨by omega, by omega⟩, rfl⟩

/-- LOAD of a block of the message draws nothing. -/
theorem execLoad_inRange {s : State} (h : loadInRange s) :
    execLoad s = .next { s with
      w := replaceFirst16 s.w (loadWord (loadByte s) (64 * s.blk.toNat))
      work := Work.ofHash s.hs, t := 16#7, phase := .expand } := by unfold execLoad; rw [if_pos h]

/-- EXPAND with a schedule index in range, its new index and phase still undecided. -/
theorem execExpand_inRange {s : State} (h1 : 16 ≤ s.t.toNat) (h2 : s.t.toNat ≤ 63) :
    execExpand s = .next { s with
      w := s.w.set s.t.toNat (scheduleSum s.w[s.t.toNat - 2] s.w[s.t.toNat - 7] s.w[s.t.toNat - 15]
        s.w[s.t.toNat - 16])
      t := if s.t = 63#7 then 0#7 else s.t + 1#7
      phase := if s.t = 63#7 then .round else s.phase } := by
  unfold execExpand
  rw [nextIndex_eq (by omega), if_pos (⟨h1, by omega⟩ : 16 ≤ s.t.toNat ∧ s.t.toNat < 64)]
  simp [scheduleWord_eq, show 2 ≤ s.t.toNat by omega, show 7 ≤ s.t.toNat by omega, show 15 ≤ s.t.toNat by omega, h1,
    show s.t.toNat - 2 < 64 by omega, show s.t.toNat - 7 < 64 by omega, show s.t.toNat - 15 < 64 by omega,
    show s.t.toNat - 16 < 64 by omega, show s.t.toNat < 64 by omega, Vector.setIfInBounds, Array.setIfInBounds,
    Vector.set]

/-- The last EXPAND of a block hands over to ROUND. -/
theorem execExpand_last {s : State} (h : s.t.toNat = 63) :
    execExpand s = .next { s with
      w := s.w.set 63 (scheduleSum s.w[61] s.w[56] s.w[48] s.w[47]), t := 0#7, phase := .round } := by
  have h' : s.t = 63#7 := BitVec.eq_of_toNat_eq h
  rw [execExpand_inRange (by omega) (by omega), if_pos h', if_pos h']
  simp only [h]

/-- Every other EXPAND advances the index. -/
theorem execExpand_more {s : State} (h1 : 16 ≤ s.t.toNat) (h2 : s.t.toNat < 63) :
    execExpand s = .next { s with
      w := s.w.set s.t.toNat (scheduleSum s.w[s.t.toNat - 2] s.w[s.t.toNat - 7] s.w[s.t.toNat - 15]
        s.w[s.t.toNat - 16])
      t := s.t + 1#7 } := by
  have h' : s.t ≠ 63#7 := by rintro h; simp [h] at h2
  rw [execExpand_inRange h1 (by omega), if_neg h', if_neg h']

/-- ROUND with a round index in range, its new phase still undecided. -/
theorem execRound_inRange {s : State} (h : s.t.toNat ≤ 63) :
    execRound s = .next { s with
      work := roundStep romK[s.t.toNat] s.w[s.t.toNat] s.work
      t := s.t + 1#7
      phase := if s.t = 63#7 then .feed else s.phase } := by
  unfold execRound
  have h4 : (s.t + 1#7 = 64#7) = (s.t = 63#7) := propext ⟨fun h' => by bv_omega, fun h' => by bv_omega⟩
  rw [nextIndex_eq (by omega), getD_eq (by omega), getD_eq (by omega), if_pos (by omega : s.t.toNat < 64)]
  simp only [h4]

/-- The last ROUND of a block hands over to FEED. -/
theorem execRound_last {s : State} (h : s.t.toNat = 63) :
    execRound s = .next { s with
      work := roundStep romK[63] s.w[63] s.work, t := 64#7, phase := .feed } := by
  have h' : s.t = 63#7 := BitVec.eq_of_toNat_eq h
  have h1 : s.t + 1#7 = 64#7 := by rw [h']; rfl
  rw [execRound_inRange (by omega), if_pos h']
  simp only [h, h1]

/-- Every other ROUND stays in ROUND. -/
theorem execRound_more {s : State} (h : s.t.toNat < 63) :
    execRound s = .next { s with
      work := roundStep romK[s.t.toNat] s.w[s.t.toNat] s.work, t := s.t + 1#7 } := by
  rw [execRound_inRange (by omega), if_neg (by rintro h'; simp [h'] at h)]

/-- FEED of a block that is not the message's last. -/
theorem execFeed_more {s : State} (h : s.blk.toNat + 1 < s.nblk.toNat) :
    execFeed s = .next { s with hs := feedForward s.hs s.work, blk := s.blk + 1#64, phase := .load } := by
  have hb : s.blk ≠ BitVec.allOnes 64 := by rintro h'; have := s.nblk.isLt; simp [h'] at h; omega
  have hl : s.blk + 1#64 < s.nblk := by bv_omega
  unfold execFeed; rw [nextBlock_eq hb, if_neg hb, if_pos hl]

/-- FEED of the message's last block. -/
theorem execFeed_last {s : State} (h : s.blk.toNat + 1 = s.nblk.toNat) :
    execFeed s = .next { s with hs := feedForward s.hs s.work, blk := s.nblk, phase := .assemble } := by
  have hb : s.blk ≠ BitVec.allOnes 64 := by rintro h'; have := s.nblk.isLt; simp [h'] at h; omega
  have hl : s.blk + 1#64 = s.nblk := by bv_omega
  unfold execFeed; rw [nextBlock_eq hb, if_neg hb, hl, if_neg (by bv_omega)]

/-- No operation writes the message, its length, the parameters, the host agent or the interleaving. -/
theorem exec_hostSide {i : Instr} {s t : State} (h : exec i s = .next t) :
    t.msg = s.msg ∧ t.msgLen = s.msgLen ∧ t.params = s.params ∧ t.program = s.program ∧ t.turns = s.turns ∧
      t.reads = s.reads := by
  cases i with
  | check =>
    rcases execCheck_cases s with ⟨-, hc⟩ | ⟨-, hc | hc⟩ <;> cases hc.symm.trans h <;> simp
  | start => cases h; split <;> simp
  | _ => cases h; simp

end Sys2Proof.Machine
end

