-- ==== Sys2Proof/Laws/Access.lean ====
section
/-! SUPPORT. What a host access can do, said once. -/

namespace Sys2Proof.Machine

/-- The register map of R33 is exact: an offset holds a register exactly when it is that register's. -/
theorem regAt_regOffset (r : Reg) : regAt (regOffset r) = some r := by
  cases r with
  | digest i => revert i; decide
  | reserved k => revert k; decide
  | _ => rfl

theorem regAt_isSome_iff (o : Nat) : (regAt o).isSome ↔ o % 4 = 0 ∧ o < 0x40 := by
  constructor
  · unfold regAt; split <;> simp
  · rintro ⟨h, hlt⟩
    interval_cases o <;> first | rfl | omega

theorem regAt_none_iff (o : Nat) : regAt o = none ↔ ¬(o % 4 = 0 ∧ o < 0x40) := by
  rw [← regAt_isSome_iff]; simp

/-- A command delivered while busy changes nothing. -/
theorem execCmd_busy {s : State} (h : s.phase ≠ .idle) (v : Word) : exec (decodeCmd v) s = .next s := by
  unfold decodeCmd
  repeat' split
  all_goals simp [exec, execNop, execStart, execReservedCmd2_3, execReservedCmd4_7, execReservedCmd8_15,
    reservedCommand_busy, h]

/-- Everything a command can do: nothing, or, when idle, an accepted START or BAD_CMD. -/
theorem execCmd_cases {v : Word} {s t : State} (h : exec (decodeCmd v) s = .next t) :
    t = s ∨ (s.phase = .idle ∧ (t = acceptStart s ∨ t = raiseError .badCmd s)) := by
  by_cases hp : s.phase = .idle
  · unfold decodeCmd at h
    split_ifs at h <;> simp [exec, execNop, execStart, execReservedCmd2_3, execReservedCmd4_7, execReservedCmd8_15,
      reservedCommand_idle, hp] at h <;> subst h <;> simp [hp]
  · rw [execCmd_busy hp] at h; cases h; exact .inl rfl

/-- A read changes only what the host has received, and the draw count. -/
theorem readReg_eq (r : Reg) (s : State) :
    ∃ v, readReg r s = reply v s ∨ readReg r s = reply v { s with draws := s.draws + 1 } := by
  cases r <;> simp only [readReg]
  case digest i =>
    split
    · exact ⟨_, .inl rfl⟩
    · exact ⟨_, .inr rfl⟩
  all_goals exact ⟨_, .inl rfl⟩

/-- What a write to a register does. -/
theorem writeReg_cases (r : Reg) (v : Word) (s : State) :
    (r = .ctrl ∧ writeReg r v s = exec (decodeCmd v) s) ∨ writeReg r v s = .next s ∨
      ∃ n, writeReg r v s = .next (writeMsgLen n s) := by
  cases r
  case ctrl => exact .inl ⟨rfl, rfl⟩
  case msgLenLo => exact .inr (.inr ⟨_, rfl⟩)
  case msgLenHi => exact .inr (.inr ⟨_, rfl⟩)
  all_goals exact .inr (.inl rfl)

/-- Everything a host access can do: it is refused, or it replies with a word, or it delivers a command, or it is
ignored, or it writes the length or one byte of the message. -/
theorem access_cases (x : Transaction) (s : State) :
    (∃ r, access x s = .refused r) ∨
    (∃ v, access x s = .next (reply v s) ∨ access x s = .next (reply v { s with draws := s.draws + 1 })) ∨
    (∃ v, x.access = .write v ∧ x.space = .reg ∧ x.width = 32 ∧ regAt x.offset = some .ctrl ∧
      access x s = exec (decodeCmd v) s) ∨
    access x s = .next s ∨
    (∃ n, access x s = .next (writeMsgLen n s)) ∨
    (∃ v, x.offset < s.params.msgMaxBytes ∧ access x s = .next (writeMsg x.offset v s)) := by
  obtain ⟨sp, ac, o, wd⟩ := x
  cases sp
  · by_cases hw : wd = 32
    · cases hr : regAt o with
      | none => exact .inl ⟨.registerAccessUndefined, by simp [access, regAccess, hr]⟩
      | some r =>
        cases ac with
        | read =>
          obtain ⟨v, hv⟩ := readReg_eq r s
          refine .inr (.inl ⟨v, ?_⟩)
          simpa [access, regAccess, hw, hr] using hv
        | write v =>
          have ha : access ⟨.reg, .write v, o, wd⟩ s = writeReg r v s := by simp [access, regAccess, hw, hr]
          rcases writeReg_cases r v s with ⟨rfl, hc⟩ | hc | ⟨n, hc⟩
          · exact .inr (.inr (.inl ⟨v, rfl, rfl, hw, rfl, ha.trans hc⟩))
          · exact .inr (.inr (.inr (.inl (ha.trans hc))))
          · exact .inr (.inr (.inr (.inr (.inl ⟨n, ha.trans hc⟩))))
    · exact .inl ⟨.registerAccessUndefined, by simp [access, regAccess, hw]⟩
  · by_cases hw : wd = 8 ∧ o < s.params.msgMaxBytes
    · cases ac with
      | read => exact .inr (.inl ⟨_, .inl (by simp [access, msgAccess, hw]; rfl)⟩)
      | write v => exact .inr (.inr (.inr (.inr (.inr ⟨_, hw.2, by simp [access, msgAccess, hw]; rfl⟩))))
    · exact .inl ⟨.messageAccessUndefined, by simp [access, msgAccess, hw]⟩

end Sys2Proof.Machine
end

