-- ==== Sys2Proof/Laws/Decode.lean ====
section
/-! SUPPORT. The two fields of a CTRL word, said once: they are read back from a word put together, and they make up the
word. -/

namespace Sys2Proof

@[simp] theorem cmdField_append (ign : BitVec 28) (cmd : BitVec 4) : cmdField (ign ++ cmd) = cmd := by
  unfold cmdField
  apply BitVec.eq_of_getLsbD_eq
  intro i hi
  rw [BitVec.getLsbD_extractLsb', BitVec.getLsbD_append]
  simp [hi]

@[simp] theorem ignoredField_append (ign : BitVec 28) (cmd : BitVec 4) : ignoredField (ign ++ cmd) = ign := by
  unfold ignoredField
  apply BitVec.eq_of_getLsbD_eq
  intro i hi
  rw [BitVec.getLsbD_extractLsb', BitVec.getLsbD_append]
  simp [hi]

theorem ignoredField_append_cmdField (v : Word) : ignoredField v ++ cmdField v = v := by
  unfold ignoredField cmdField
  apply BitVec.eq_of_getLsbD_eq
  intro i hi
  rw [BitVec.getLsbD_append]
  split
  · simp_all
  · rw [BitVec.getLsbD_extractLsb', show 4 + (i - 4) = i by omega]
    simp [show i - 4 < 28 by omega]

/-- `v[3:0]` as a number (R45). -/
theorem cmdField_toNat (v : Word) : (cmdField v).toNat = v.toNat % 16 := by simp [cmdField]

end Sys2Proof
end

