-- ==== Sys2Proof/Laws/PerInstr.lean ====
section
/-! SUPPORT. Statements made per instruction: the encoder's word lies in the instruction's row of the opcode table. -/

namespace Sys2Proof.Laws.RowCovers

/-- A well-formed instruction is encoded by a word that its row of spec/opcode_table.json covers. -/
def Statement (i : Instr) : Prop := i.wellFormed = true → (opRow i).covers (encode i) = true

theorem command {ign : BitVec 28} {cmd : BitVec 4} {m k : BitVec 4} (h : cmd &&& k = m) :
    (OpRow.mk .cmd (m.setWidth 32) (k.setWidth 32)).covers (.cmd (ign ++ cmd)) = true := by
  subst h
  simp only [OpRow.covers, beq_self_eq_true, Bool.true_and, beq_iff_eq]
  ext i hi
  simp only [BitVec.getElem_and, BitVec.getElem_append, BitVec.getElem_setWidth, BitVec.getLsbD_and]
  split
  · simp [BitVec.getLsbD_eq_getElem, *]
  · rw [BitVec.getLsbD_of_ge k i (by omega)]; simp

theorem nop (ign : BitVec 28) : Statement (.nop ign) := fun _ => command (by decide : 0x0#4 &&& 0xF#4 = 0x0#4)

theorem start (ign : BitVec 28) : Statement (.start ign) := fun _ => command (by decide : 0x1#4 &&& 0xF#4 = 0x1#4)

theorem reservedCmd2_3 (ign : BitVec 28) (cmd : BitVec 4) : Statement (.reservedCmd2_3 ign cmd) := fun h =>
  command (by simpa [Instr.wellFormed] using h : cmd &&& 0xE#4 = 0x2#4)

theorem reservedCmd4_7 (ign : BitVec 28) (cmd : BitVec 4) : Statement (.reservedCmd4_7 ign cmd) := fun h =>
  command (by simpa [Instr.wellFormed] using h : cmd &&& 0xC#4 = 0x4#4)

theorem reservedCmd8_15 (ign : BitVec 28) (cmd : BitVec 4) : Statement (.reservedCmd8_15 ign cmd) := fun h =>
  command (by simpa [Instr.wellFormed] using h : cmd &&& 0x8#4 = 0x8#4)

theorem idle : Statement .idle := fun _ => by decide
theorem check : Statement .check := fun _ => by decide
theorem load : Statement .load := fun _ => by decide
theorem expand : Statement .expand := fun _ => by decide
theorem round : Statement .round := fun _ => by decide
theorem feed : Statement .feed := fun _ => by decide
theorem assemble : Statement .assemble := fun _ => by decide
theorem reservedPhase7 : Statement .reservedPhase7 := fun _ => by decide

end Sys2Proof.Laws.RowCovers
end

