-- ==== Sys2Proof/Laws/Step.lean ====
section
/-! SUPPORT. What a step can do, said once. -/

namespace Sys2Proof.Machine

theorem step_core {s : State} (h : nextTurn s = .core) : step s = exec (fetch s) (takeTurn s) := by
  unfold step; rw [h]

theorem step_host {s : State} (h : nextTurn s = .host) : step s = hostTurn (takeTurn s) := by unfold step; rw [h]

theorem step_reset {s : State} (h : nextTurn s = .reset) : step s = .next (resetEvent (takeTurn s)) := by
  unfold step; rw [h]

/-- A host turn is the end of the program, or one bus transaction. -/
theorem hostTurn_cases (s : State) :
    hostTurn s = .next s ∨ ∃ x rest, hostTurn s = access x { s with program := rest } := by
  unfold hostTurn
  split
  · exact .inl rfl
  · exact .inr ⟨_, _, rfl⟩
  · split
    · exact .inr ⟨_, s.program, rfl⟩
    · exact .inr ⟨_, _, rfl⟩

/-- Everything a host turn can do, as a rule for proving a relation between the state before and after it: an operation
used up, a reply, a write of the length or of the message, or a command. -/
theorem hostTurn_post {P : State → Prop} {s t : State}
    (nothing : ∀ rest, P { s with program := rest })
    (reply_ : ∀ v rest, P (reply v { s with program := rest }))
    (drawn : ∀ v rest, P (reply v { s with program := rest, draws := s.draws + 1 }))
    (length : ∀ n rest, P (writeMsgLen n { s with program := rest }))
    (byte : ∀ i v rest, i < s.params.msgMaxBytes → P (writeMsg i v { s with program := rest }))
    (command : ∀ v rest t, exec (decodeCmd v) { s with program := rest } = .next t → P t)
    (h : hostTurn s = .next t) : P t := by
  rcases hostTurn_cases s with h1 | ⟨x, rest, h1⟩
  · cases h1.symm.trans h; exact nothing s.program
  · rw [h1] at h
    rcases access_cases x { s with program := rest } with
      ⟨r, h2⟩ | ⟨v, h2 | h2⟩ | ⟨v, -, -, -, -, h2⟩ | h2 | ⟨n, h2⟩ | ⟨v, hv, h2⟩
    · cases h2.symm.trans h
    · cases h2.symm.trans h; exact reply_ _ _
    · cases h2.symm.trans h; exact drawn _ _
    · exact command _ _ _ (h2.symm.trans h)
    · cases h2.symm.trans h; exact nothing _
    · cases h2.symm.trans h; exact length _ _
    · cases h2.symm.trans h; exact byte _ _ _ hv

/-- A core step while busy performs the operation of its phase. -/
theorem fetch_phase (s : State) :
    fetch s = match s.phase with
      | .idle => .idle
      | .check => .check
      | .load => .load
      | .expand => .expand
      | .round => .round
      | .feed => .feed
      | .assemble => .assemble
      | .reserved7 => .reservedPhase7 := by
  unfold fetch; cases s.phase <;> rfl

theorem coreRun_succ (M : Host.Core) (k : Nat) {s t : M.State} (h : M.step s = .next t) :
    Host.Core.run M (k + 1) s = Host.Core.run M k t := by rw [Host.Core.run, h]

theorem coreRun_succ_inv (M : Host.Core) (k : Nat) {s t : M.State} (h : Host.Core.run M (k + 1) s = .next t) :
    ∃ u, M.step s = .next u ∧ Host.Core.run M k u = .next t := by
  rw [Host.Core.run] at h
  split at h
  · next u hu => exact ⟨u, hu, h⟩
  · cases h
  · cases h

/-- A run is its first step and the rest. -/
theorem run_succ {s t : State} (h : step s = .next t) (k : Nat) :
    Host.Core.run core (k + 1) s = Host.Core.run core k t := coreRun_succ core k h

theorem run_succ_inv {s t : State} {k : Nat} (h : Host.Core.run core (k + 1) s = .next t) :
    ∃ u, step s = .next u ∧ Host.Core.run core k u = .next t := coreRun_succ_inv core k h

/-- What every step keeps holds at the end of every run. -/
theorem run_keeps {P : State → Prop} (keeps : ∀ s t, P s → step s = .next t → P t) (k : Nat) :
    ∀ s t, P s → Host.Core.run core k s = .next t → P t := by
  induction k with
  | zero => intro s t hs h; cases h; exact hs
  | succ k ih =>
    intro s t hs h
    obtain ⟨u, hu, hr⟩ := run_succ_inv h
    exact ih u t (keeps s u hs hu) hr

/-! ### the hash in progress depends on the message, its length and the block index only (cite these rather than `rfl`,
which would have the kernel evaluate the rounds) -/

theorem padded_congr {s t : State} (hm : t.msg = s.msg) (hl : t.msgLen = s.msgLen) :
    Safety.padded t = Safety.padded s := by unfold Safety.padded; rw [hm, hl]

theorem scheduleNow_congr {s t : State} (hm : t.msg = s.msg) (hl : t.msgLen = s.msgLen) (hb : t.blk = s.blk) :
    Safety.scheduleNow t = Safety.scheduleNow s := by unfold Safety.scheduleNow; rw [padded_congr hm hl, hb]

/-! ### a core step, phase by phase -/

theorem step_idle {s : State} (hn : nextTurn s = .core) (hp : s.phase = .idle) : step s = execIdle (takeTurn s) := by
  rw [step_core hn, fetch_phase, hp]; rfl

theorem step_check {s : State} (hn : nextTurn s = .core) (hp : s.phase = .check) : step s = execCheck (takeTurn s) := by
  rw [step_core hn, fetch_phase, hp]; rfl

theorem step_load {s : State} (hn : nextTurn s = .core) (hp : s.phase = .load) : step s = execLoad (takeTurn s) := by
  rw [step_core hn, fetch_phase, hp]; rfl

theorem step_expand {s : State} (hn : nextTurn s = .core) (hp : s.phase = .expand) : step s = execExpand (takeTurn s) := by
  rw [step_core hn, fetch_phase, hp]; rfl

theorem step_round {s : State} (hn : nextTurn s = .core) (hp : s.phase = .round) : step s = execRound (takeTurn s) := by
  rw [step_core hn, fetch_phase, hp]; rfl

theorem step_feed {s : State} (hn : nextTurn s = .core) (hp : s.phase = .feed) : step s = execFeed (takeTurn s) := by
  rw [step_core hn, fetch_phase, hp]; rfl

theorem step_assemble {s : State} (hn : nextTurn s = .core) (hp : s.phase = .assemble) : step s = execAssemble (takeTurn s) := by
  rw [step_core hn, fetch_phase, hp]; rfl

theorem step_reserved7 {s : State} (hn : nextTurn s = .core) (hp : s.phase = .reserved7) : step s = execReservedPhase7 (takeTurn s) := by
  rw [step_core hn, fetch_phase, hp]; rfl

@[simp] theorem phase_ofCode_code (p : Phase) : Phase.ofCode p.code = p := by cases p <;> rfl

theorem phase_code_ofCode (p : BitVec 3) : (Phase.ofCode p).code = p := by revert p; decide

end Sys2Proof.Machine
end

