-- ==== Sys2Proof/Tests/Slice0.lean ====
section
/-! SUPPORT. The model's own tests. Expected values come from the spec: the worked examples of its rules and the vectors
V6 to V49 of 95_test_vectors.md. The witnesses show, for every statement with hypotheses, values that meet them together. -/

namespace Sys2Proof.Tests

open Sys2Proof.Machine Sys2Proof.Safety

/-- A field of the state a step answers with. -/
def get {α : Type} (f : State → α) : Host.Outcome State Fault Refusal → Option α
  | .next s => some (f s)
  | .fault _ => none
  | .refused _ => none

/-- The refusal a host access ends in. -/
def why : Host.Outcome State Fault Refusal → Option Refusal
  | .refused r => some r
  | _ => none

/-- A successful hash, idle (`STATUS = 0x00000002`). -/
def doneState : State := { State.reset with done := true }

/-- A LEN_OVERFLOW error, idle (`STATUS = 0x00000014`). -/
def errState : State := { State.reset with err := true, errcode := .lenOverflow }

/-- A hash in ROUND (`STATUS = 0x00000401`). -/
def busyState : State := { State.reset with phase := .round }

/-- The message "abc" with its length. -/
def abcState : State := { State.reset with msg := [(0, 0x61), (1, 0x62), (2, 0x63)], msgLen := 3 }

/-- `IV` as working registers. -/
def ivWork : Work := Work.ofHash romIV

/-! ### Well-formedness: an ill-formed term for each check -/

theorem test_wf_refuses_code_of_another_row :
    (Instr.reservedCmd2_3 0 0x4).wellFormed = false ∧ (Instr.reservedCmd2_3 0 0x1).wellFormed = false ∧
    (Instr.reservedCmd4_7 0 0x3).wellFormed = false ∧ (Instr.reservedCmd4_7 0 0x8).wellFormed = false ∧
    (Instr.reservedCmd8_15 0 0x7).wellFormed = false := by decide

theorem test_wf_accepts_codes_of_the_row :
    (Instr.reservedCmd2_3 0 0x3).wellFormed = true ∧ (Instr.reservedCmd4_7 0 0x4).wellFormed = true ∧
    (Instr.reservedCmd8_15 0 0xF).wellFormed = true := by decide

theorem test_wf_refuses_data_wider_than_a_byte :
    (Transaction.mk .msg (.write 0x100) 0 8).wellFormed = false ∧
    (Transaction.mk .msg (.write 0xFF) 0 8).wellFormed = true := by decide

/-! ### Decoding: words written out from R45, R46 and R48 -/

theorem test_decode_nop : decodeTableWord 32 0b00000000000000000000000000000000 = some (.nop 0) := by decide
theorem test_decode_start : decodeTableWord 32 0b11111111111111111111111111110001 = some (.start 0xFFFFFFF) := by decide
theorem test_decode_reserved2 :
    decodeTableWord 32 0b00000000000000000000000000010010 = some (.reservedCmd2_3 0x1 0b0010) := by decide
theorem test_decode_reserved7 :
    decodeTableWord 32 0b00000000000000000000000000000111 = some (.reservedCmd4_7 0 0b0111) := by decide
theorem test_decode_reserved15 :
    decodeTableWord 32 0b00000000000000000000000000001111 = some (.reservedCmd8_15 0 0b1111) := by decide
theorem test_decode_idle : decodeTableWord 8 0b000 = some .idle := by decide
theorem test_decode_check : decodeTableWord 8 0b001 = some .check := by decide
theorem test_decode_load : decodeTableWord 8 0b010 = some .load := by decide
theorem test_decode_expand : decodeTableWord 8 0b011 = some .expand := by decide
theorem test_decode_round : decodeTableWord 8 0b100 = some .round := by decide
theorem test_decode_feed : decodeTableWord 8 0b101 = some .feed := by decide
theorem test_decode_assemble : decodeTableWord 8 0b110 = some .assemble := by decide
theorem test_decode_reserved_phase : decodeTableWord 3 0b111 = some .reservedPhase7 := by decide

theorem test_decode_rejects_by_name :
    opWordOf 8 0b1000 = .error .phaseTooWide ∧ opWordOf 32 (2 ^ 32) = .error .cmdTooWide ∧
    opWordOf 40 0 = .error .noSuchFormat := by decide

/-- The step after placing a word runs the instruction of that word. -/
theorem test_fetch_word :
    get State.phase (step (State.reset.withFetchWord 32 0x00000001)) = some .check ∧
    get State.phase (step (State.reset.withFetchWord 8 0b001)) = some .load ∧
    get State.errcode (step (State.reset.withFetchWord 8 0b111)) = some .internal := by decide

/-! ### Word functions: V6, V7, V8, V17 and the worked examples of R65 to R68 -/

theorem test_add_wraps : (0xFFFFFFFF : Word) + 0x00000001 = 0x00000000 := by decide
theorem test_rotr : rotr 0x12345678 0 = 0x12345678 ∧ rotr 0x12345678 7 = 0xF02468AC ∧
    rotr 0x12345678 31 = 0x2468ACF0 := by decide
theorem test_shr : shr 0xFFFFFFFF 3 = 0x1FFFFFFF ∧ shr 0x12345678 10 = 0x00048D15 := by decide
theorem test_small_sigmas : smallSigma0 0x6A09E667 = 0xBA0CF582 ∧ smallSigma0 0xFFFFFFFF = 0x1FFFFFFF ∧
    smallSigma1 0x6A09E667 = 0xCFE5DA3C ∧ smallSigma1 0xFFFFFFFF = 0x003FFFFF := by decide
theorem test_big_sigmas : bigSigma0 0x6A09E667 = 0xCE20B47E ∧ bigSigma1 0x510E527F = 0x3587272B := by decide
theorem test_ch : ch 0x510E527F 0x9B05688C 0x1F83D9AB = 0x1F85C98C ∧
    ch 0xF0F0F0F0 0xAAAAAAAA 0x55555555 = 0xA5A5A5A5 := by decide
theorem test_maj : maj 0x6A09E667 0xBB67AE85 0x3C6EF372 = 0x3A6FE667 := by decide

/-! ### Padding: the table of R55, V10 and V14 -/

theorem test_nBlocks : [0, 55, 56, 63, 64, 119, 120].map nBlocks = [1, 1, 2, 2, 2, 2, 3] := by decide
theorem test_pad_abc : pad [0x61, 0x62, 0x63] =
    [0x61, 0x62, 0x63, 0x80] ++ List.replicate 52 0x00 ++ [0, 0, 0, 0, 0, 0, 0, 0x18] := by decide
theorem test_padByte : padByte [] 256 56 56 = some 0x80 ∧ padByte [] 256 56 119 = some 0x00 ∧
    padByte [] 256 56 126 = some 0x01 ∧ padByte [] 256 56 127 = some 0xC0 ∧ padByte [] 256 56 128 = none := by decide

/-! ### The message buffer -/

theorem test_memory_canonical :
    memWrite (memWrite (memWrite [] 5 0x11) 2 0x22) 5 0x00 = [(2, 0x22)] ∧
    memRead (memWrite [] 5 0x11) 5 = 0x11 ∧ memRead (memWrite [] 5 0x11) 4 = 0x00 := by decide

/-! ### Commands: V47 -/

theorem test_nop_done : get statusWord (exec (.nop 0) doneState) = some 0x00000002 := by decide
theorem test_start_after_error : get statusWord (exec (.start 0) errState) = some 0x00000101 := by decide
theorem test_start_busy : get statusWord (exec (.start 0) busyState) = some 0x00000401 := by decide
theorem test_reserved2 : get statusWord (access (wr32 .ctrl 0x00000012) State.reset) = some 0x00000034 := by decide
theorem test_reserved7_done : get statusWord (exec (.reservedCmd4_7 0 0x7) doneState) = some 0x00000034 := by decide
theorem test_reserved15_busy : get statusWord (exec (.reservedCmd8_15 0 0xF) busyState) = some 0x00000401 := by decide

/-! ### Sequencer operations: the worked examples of R77 to R84 and V46 -/

theorem test_idle : get statusWord (exec .idle doneState) = some 0x00000002 := by decide
theorem test_check_abc : get (fun t => (statusWord t, t.nblk, t.blk, t.hs[7]))
    (exec .check { abcState with phase := .check }) = some (0x00000201, 1, 0, 0x5BE0CD19) := by decide
theorem test_check_lengths :
    get statusWord (exec .check { busyState with msgLen := 0x101 }) = some 0x00000024 ∧
    get statusWord (exec .check { busyState with msgLen := 0x1FFFFFFFFFFFFFFF }) = some 0x00000024 ∧
    get statusWord (exec .check { busyState with msgLen := 0x2000000000000000 }) = some 0x00000014 := by decide
theorem test_load_abc : get (fun t => (t.w[0], t.w[1], t.w[15], t.t))
    (exec .load { abcState with phase := .load, hs := romIV }) = some (0x61626380, 0, 0x18, 16) := by decide
theorem test_load_copies_hash_state : get State.work
    (exec .load { abcState with phase := .load, hs := romIV }) = some ivWork := by decide
theorem test_expand_17 : get (fun t => (t.w[17], t.t, t.phase)) (exec .expand
    { State.reset with phase := .expand, t := 17, w := (Vector.replicate 64 0).set 15 0x18 }) =
      some (0x000F0000, 18, .expand) := by decide
theorem test_expand_last : get (fun t => (t.w[63], t.t, t.phase)) (exec .expand
    { State.reset with phase := .expand, t := 63, w := Vector.replicate 64 0xFFFFFFFF }) =
      some (0x203FFFFC, 0, .round) := by decide
theorem test_round_0 : get (fun t => (t.work, t.t, t.phase)) (exec .round
    { State.reset with phase := .round, t := 0, work := ivWork, w := Vector.replicate 64 0x61626380 }) =
      some (⟨0x5D6AEBCD, 0x6A09E667, 0xBB67AE85, 0x3C6EF372, 0xFA2A4622, 0x510E527F, 0x9B05688C, 0x1F83D9AB⟩,
        1, .round) := by decide
theorem test_round_last : get (fun t => (t.t, t.phase)) (exec .round
    { State.reset with phase := .round, t := 63 }) = some (64, .feed) := by decide
theorem test_feed_abc : get (fun t => (t.hs, t.blk, t.phase)) (exec .feed
    { State.reset with
      phase := .feed, nblk := 1, hs := romIV
      work := ⟨0x506E3058, 0xD39A2165, 0x04D24D6C, 0xB85E2CE9, 0x5EF50F24, 0xFB121210, 0x948D25B6, 0x961F4894⟩ }) =
    some (#v[0xBA7816BF, 0x8F01CFEA, 0x414140DE, 0x5DAE2223, 0xB00361A3, 0x96177A9C, 0xB410FF61, 0xF20015AD],
      1, .assemble) := by decide
theorem test_feed_next_block : get (fun t => (t.blk, t.phase)) (exec .feed
    { State.reset with phase := .feed, nblk := 2 }) = some (1, .load) := by decide
theorem test_assemble_abc : get (fun t => (t.dout.toList.take 5, t.dout[31], statusWord t)) (exec .assemble
    { State.reset with
      phase := .assemble
      hs := #v[0xBA7816BF, 0x8F01CFEA, 0x414140DE, 0x5DAE2223, 0xB00361A3, 0x96177A9C, 0xB410FF61, 0xF20015AD] }) =
    some ([0xBA, 0x78, 0x16, 0xBF, 0x8F], 0xAD, 0x00000002) := by decide
theorem test_reserved_phase : get statusWord (exec .reservedPhase7
    { State.reset with phase := .reserved7, done := true }) = some 0x00000044 := by decide

/-! ### Host accesses: V48, V49, and R34, R37 -/

theorem test_busy_writes_are_dropped :
    get State.msg (access (wr8 0 0x78) { abcState with phase := .load }) = some abcState.msg ∧
    get State.msgLen (access (wr32 .msgLenLo 5) { abcState with phase := .load }) = some 3 := by decide
theorem test_length_halves :
    get State.msgLen (access (wr32 .msgLenHi 0x20000000) abcState) = some 0x2000000000000003 ∧
    get State.msgLen (access (wr32 .msgLenLo 0x38) errState) = some 0x38 := by decide
theorem test_register_reads :
    get State.reads (access (rd32 .status) errState) = some [0x00000014] ∧
    get State.reads (access (rd32 (.reserved 0)) errState) = some [0x00000000] ∧
    get State.reads (access (rd32 (.digest 0)) { doneState with dout := Vector.replicate 32 0xBA }) =
      some [0xBABABABA] := by decide
theorem test_undefined_accesses_are_refused :
    why (access ⟨.reg, .read, 0x04, 8⟩ State.reset) = some .registerAccessUndefined ∧
    why (access ⟨.reg, .read, 0x06, 32⟩ State.reset) = some .registerAccessUndefined ∧
    why (access ⟨.reg, .write 1, 0x40, 32⟩ State.reset) = some .registerAccessUndefined ∧
    why (access ⟨.msg, .read, 0, 32⟩ State.reset) = some .messageAccessUndefined ∧
    why (access ⟨.msg, .read, 256, 8⟩ State.reset) = some .messageAccessUndefined := by decide

/-- `poll_idle` reads again while BUSY was read. -/
theorem test_poll :
    get (fun t => t.program.length) (hostTurn { busyState with program := opPollIdle }) = some 1 ∧
    get (fun t => t.program.length) (hostTurn { doneState with program := opPollIdle }) = some 0 := by decide

/-! ### Witnesses: the hypotheses of the statements can be met, clause by clause -/

theorem witness_DecodingInvertsEncoding :
    (Instr.reservedCmd2_3 0xFFFFFFF 0x2).wellFormed = true ∧ (Instr.reservedCmd8_15 0 0xF).wellFormed = true := by decide

theorem witness_commands :
    (0x00000012 : Word).toNat % 16 = (0x00000002 : Word).toNat % 16 ∧ (0xFFFFFFF0 : Word).toNat % 16 = 0x0 ∧
    (0xFFFFFFF1 : Word).toNat % 16 = 0x1 ∧ 0x2 ≤ (0x00000002 : Word).toNat % 16 ∧ 0x2 ≤ (0x0000000F : Word).toNat % 16 ∧
    doneState.phase = .idle ∧ busyState.phase ≠ .idle := by decide

theorem witness_CheckValidatesTheLengthThenInitialises :
    2 ^ 61 ≤ (0x2000000000000000 : U64).toNat ∧
    ((0x1FFFFFFFFFFFFFFF : U64).toNat < 2 ^ 61 ∧ State.reset.params.msgMaxBytes < (0x101 : U64).toNat) ∧
    ((0x100 : U64).toNat < 2 ^ 61 ∧ (0x100 : U64).toNat ≤ State.reset.params.msgMaxBytes) := by decide

/-- The first and the last block of the longest message that fits, and the empty message. -/
theorem witness_LoadPacksTheBlock :
    lengthOk 256 (0x100 : U64).toNat ∧ (0 : U64).toNat < nBlocks (0x100 : U64).toNat ∧
    (4 : U64).toNat < nBlocks (0x100 : U64).toNat ∧ lengthOk 256 0 ∧ 0 < nBlocks 0 := by decide

theorem witness_ExpandComputesOneScheduleWord :
    (16 ≤ (16 : Index).toNat ∧ (16 : Index).toNat ≤ 63) ∧ (16 ≤ (63 : Index).toNat ∧ (63 : Index).toNat ≤ 63) := by
  decide

theorem witness_RoundMixesTheWorkingRegisters : (0 : Index).toNat ≤ 63 ∧ (63 : Index).toNat ≤ 63 := by decide

theorem witness_FeedAddsAndMovesToTheNextBlock :
    (0 : U64).toNat + 1 < 2 ^ 64 ∧ (0xFFFFFFFFFFFFFFFE : U64).toNat + 1 < 2 ^ 64 := by decide

theorem witness_ReservedPhaseRaisesInternal : ∃ s : State, s.phase = .reserved7 ∧ fetch s = .reservedPhase7 :=
  ⟨{ busyState with phase := .reserved7 }, rfl, rfl⟩

theorem witness_ErrorsComeOnlyFromTheirSources :
    ∃ t, busyState.phase ≠ .reserved7 ∧ step busyState = .next t ∧ t.phase ≠ .reserved7 :=
  ⟨_, by decide, rfl, by decide⟩

theorem witness_OperationsWriteOnlyTheirRegisters :
    ∃ t, exec .check { abcState with phase := .check } = .next t ∧ t.hs ≠ abcState.hs ∧ t.nblk ≠ abcState.nblk :=
  ⟨_, rfl, by decide, by decide⟩

theorem witness_ErrorEntryIsPrecise :
    (∃ t, exec .reservedPhase7 busyState = .next t ∧ t.err = true ∧ busyState.err = false) ∧
    (∃ t, exec (.reservedCmd2_3 0 2) errState = .next t ∧ t.err = true ∧ t.errcode ≠ errState.errcode) :=
  ⟨⟨_, rfl, rfl, rfl⟩, ⟨_, rfl, rfl, by decide⟩⟩

theorem witness_OnlyAssembleSetsDone :
    ∃ t, exec .assemble { busyState with phase := .assemble, hs := romIV } = .next t ∧
      (t.done = true ∧ busyState.done = false) ∧ t.dout ≠ busyState.dout := ⟨_, rfl, by decide, by decide⟩

theorem witness_OnlyStartLeavesIdle :
    ∃ t, step { doneState with program := opStart } = .next t ∧ doneState.phase = .idle ∧ t.phase ≠ .idle :=
  ⟨_, rfl, rfl, by decide⟩

theorem witness_RejectedLengthFailsAgain :
    State.reset.phase = .idle ∧ ¬lengthOk State.reset.params.msgMaxBytes (0x101 : U64).toNat ∧
    ¬lengthOk State.reset.params.msgMaxBytes (0x2000000000000000 : U64).toNat := by decide

theorem witness_RegisterReads :
    (doneState.done = true ∧ 7 < 8) ∧ (errState.done = false ∧ 0 < 8) := by decide

theorem witness_RegisterSpace :
    (0x3C % 4 = 0 ∧ 0x3C < 0x40) ∧ ¬(32 = 32 ∧ 0x40 % 4 = 0 ∧ 0x40 < 0x40) ∧ ¬(32 = 32 ∧ 0x3E % 4 = 0 ∧ 0x3E < 0x40) ∧
    ¬(8 = 32 ∧ 0x04 % 4 = 0 ∧ 0x04 < 0x40) := by decide

theorem witness_MessageSpace :
    255 < abcState.params.msgMaxBytes ∧ busyState.phase ≠ .idle ∧ abcState.phase = .idle ∧ Memory.wf abcState.msg ∧
    ¬(8 = 8 ∧ 256 < abcState.params.msgMaxBytes) ∧ ¬(32 = 8 ∧ 0 < abcState.params.msgMaxBytes) := by decide

theorem witness_RepeatedReads :
    (∃ s1 s2, access (rd32 .status) doneState = .next s1 ∧ access (rd32 .status) s1 = .next s2) ∧
    (∃ s1 s2, access (rd32 (.digest 7)) errState = .next s1 ∧ access (rd32 (.digest 7)) s1 = .next s2) :=
  ⟨⟨_, _, rfl, rfl⟩, ⟨_, _, rfl, rfl⟩⟩

theorem witness_BusyCoreIgnoresTheHost :
    busyState.phase ≠ .idle ∧ Defined busyState.params (wr32 .msgLenHi 5) ∧ Defined busyState.params (wr8 255 0x78) ∧
    (wr8 255 0x78).access = .write 0x78 ∧ Defined busyState.params (rd32 (.digest 7)) := by decide

/-- The commands written while busy: START and a reserved command. -/
theorem witness_BusyCoreIgnoresTheHost_command :
    busyState.phase ≠ .idle ∧ Defined busyState.params (wr32 .ctrl 0x1) ∧ (wr32 .ctrl 0x1).access = .write 0x1 ∧
    Defined busyState.params (wr32 .ctrl 0xF) ∧ (wr32 .ctrl 0xF).access = .write 0xF := by decide

theorem witness_DigestIsStableWhileDone :
    ∃ t, doneState.done = true ∧ access (wr32 .ctrl 0) doneState = .next t ∧
      ∀ v, wr32 .ctrl 0 = ⟨.reg, .write v, 0x00, 32⟩ → v.toNat % 16 = 0x0 ∨ doneState.phase ≠ .idle :=
  ⟨_, rfl, rfl, fun v h => .inl (by cases h; rfl)⟩

theorem witness_BusAddresses :
    Defined State.reset.params (wr8 255 0) ∧ State.reset.params.regBase + 64 ≤ State.reset.params.msgBase ∧
    Defined ⟨256, 256, 0⟩ (rd32 (.reserved 3)) ∧ (0 : Nat) + 256 ≤ 256 := by decide

theorem witness_CanonicalBuffers : Memory.wf abcState.msg ∧ Memory.wf [] ∧ ¬Memory.wf [(1, 0x61), (0, 0x62)] ∧
    ¬Memory.wf [(0, 0x00)] := by decide

/-- The four cases of R56, at the boundaries of their ranges, and the greatest length. -/
theorem witness_PadByte :
    (3 < 2 ^ 61 ∧ 3 ≤ 256) ∧ (2 < padLen 3 ∧ 2 < 3) ∧ 3 < padLen 3 ∧ (3 < 4 ∧ 4 < padLen 3 - 8) ∧
    (3 < 55 ∧ 55 < padLen 3 - 8) ∧ (padLen 3 - 8 ≤ 56 ∧ 56 < padLen 3) ∧ 63 < padLen 3 ∧
    2 ^ 61 - 1 < 2 ^ 61 := by decide

theorem witness_PaddedMessageProperties : ([] : List Byte).length < 2 ^ 61 ∧
    (([] : List Byte).length < 1 ∧ 1 < (pad ([] : List Byte)).length - 8) := by decide

theorem witness_Blocks :
    (List.replicate 64 (0 : Byte)).length % 64 = 0 ∧ 0 < (List.replicate 64 (0 : Byte)).length / 64 ∧
    1 < nBlocks 56 := by decide

theorem witness_BigEndianPackingRoundTrips : 0 < (beBytes 8 24).length ∧ 7 < (beBytes 8 24).length := by decide

theorem witness_Schedule : (List.replicate 64 (0xFF : Byte)).length = 64 := by decide

theorem witness_turns :
    nextTurn busyState = .core ∧ nextTurn { State.reset with turns := [.core] } = .core ∧
    nextTurn { busyState with turns := [.host] } = .host ∧ nextTurn State.reset = .host ∧
    nextTurn { busyState with turns := [.reset] } = .reset := by decide

theorem witness_HostTurnRunsTheNextTransaction :
    State.reset.program = [] ∧ opNop = [.bus ⟨.reg, .write 0, 0x00, 32⟩] ∧ opPollIdle = [.pollIdle] := by decide

theorem bufferOk_abc : BufferOk abcState := ⟨by decide, by decide⟩

theorem witness_StepKeepsTheMessageBufferCanonical :
    ∃ t, BufferOk abcState ∧ step { abcState with program := [.bus (wr8 0 0)] } = .next t ∧
      t.msg = [(1, 0x62), (2, 0x63)] := ⟨_, bufferOk_abc, rfl, by decide⟩

/-- A hash just started. -/
def checkState : State := { abcState with phase := .check }

theorem inv_checkState : Inv checkState := by constructor <;> simp [checkState, abcState, State.reset]

/-- The empty message's hash in ROUND, before its first round. -/
def roundState : State :=
  { State.reset with
    phase := .round, nblk := 1, hs := romIV, work := Work.ofHash romIV, w := expand (block (pad (message [] 0)) 0) }

theorem inv_roundState : Inv roundState := by
  constructor <;> simp [roundState, State.reset, hashing, lengthOk, nBlocks_eq]

theorem tracks_roundState : Tracks roundState := by
  constructor
  · intro _; unfold absorb; rfl
  · simp [roundState]
  · simp [roundState]
  · intro _; rfl
  · intro _; unfold rounds; rfl

theorem witness_StepKeepsTheDatapathOnTheHash :
    ∃ t, Inv roundState ∧ Tracks roundState ∧ step roundState = .next t ∧ roundState.phase ≠ .idle :=
  ⟨_, inv_roundState, tracks_roundState, rfl, by simp [roundState]⟩

/-- The empty message's hash before ASSEMBLE. -/
def assembleState : State :=
  { State.reset with phase := .assemble, nblk := 1, blk := 1, t := 64, hs := absorb (pad (message [] 0)) 1 }

theorem inv_assembleState : Inv assembleState := by
  constructor <;> simp [assembleState, State.reset, hashing, lengthOk, nBlocks_eq]

theorem tracks_assembleState : Tracks assembleState := by
  constructor
  · intro _; rfl
  all_goals simp [assembleState]

theorem witness_AssembleDeliversTheHashOfTheMessage :
    Inv assembleState ∧ Tracks assembleState ∧ assembleState.phase = .assemble ∧ nextTurn assembleState = .core :=
  ⟨inv_assembleState, tracks_assembleState, rfl, rfl⟩

theorem witness_CoreStepsAreCounted :
    (Inv checkState ∧ checkState.phase ≠ .idle ∧ nextTurn checkState = .core) ∧
    ∃ t, Inv { checkState with turns := [.host] } ∧ nextTurn { checkState with turns := [.host] } = .host ∧
      step { checkState with turns := [.host] } = .next t :=
  ⟨⟨inv_checkState, by decide, by decide⟩,
    ⟨_, by constructor <;> simp [checkState, abcState, State.reset], rfl, rfl⟩⟩

/-- A rejected and an accepted length, with a host access between START and the first core step. -/
theorem witness_HashRun :
    State.reset.phase = .idle ∧ (∃ s0, exec (.start 0) State.reset = .next s0) ∧
    DefinedProgram State.reset.params [.bus (wr8 0 0x78), .pollIdle] ∧
    (.reset ∉ [Turn.host, .core] ∧ [Turn.host, .core].getLast? = some .core ∧ [Turn.host, .core].count .core = 1 ∧
      ¬lengthOk 256 (0x101 : U64).toNat) ∧
    (.reset ∉ Turn.host :: List.replicate 116 .core ∧
      (Turn.host :: List.replicate 116 .core).getLast? = some .core ∧
      (Turn.host :: List.replicate 116 .core).count .core = 2 + 114 * nBlocks 0 ∧ lengthOk 256 0) := by
  refine ⟨rfl, ⟨_, rfl⟩, fun t h => ?_, by decide, by simp, by simp, ?_, by decide⟩
  · simp at h; subst h; decide
  · rw [List.count_cons, List.count_replicate_self]; rfl

theorem witness_BusyCoreBecomesIdle : Inv checkState ∧ checkState.turns = [] ∧ 0 < stepsLeft checkState :=
  ⟨inv_checkState, rfl, by decide⟩

/-- Two started hashes whose hidden registers differ. -/
theorem witness_HiddenStateIsNotObservable :
    Alike checkState { checkState with hs := romIV, t := 5, w := Vector.replicate 64 7 } ∧ checkState.hs ≠ romIV := by
  refine ⟨⟨inv_checkState, by constructor <;> simp [checkState, abcState, State.reset], ?_, ?_⟩, by decide⟩
  · constructor <;> simp [checkState]
  · constructor <;> simp [checkState, hashing]

theorem witness_HiddenState_refused :
    ∃ r, step { State.reset with program := [.bus ⟨.msg, .read, 256, 8⟩] } = .refused r := ⟨_, rfl⟩

end Sys2Proof.Tests
end

section
/-!
PROOFS. Rotation and logical shift (R13, R14). `rotr` is the library's `BitVec.rotateRight` for every amount below the
word's width, and the library's lemmas about it give the bit-by-bit reading.
-/
namespace Sys2Proof.Machine

theorem toNat_rotr (x : Word) (n : Nat) :
    (rotr x n).toNat = x.toNat / 2 ^ n ||| x.toNat * 2 ^ (32 - n) % 2 ^ 32 := by
  simp only [rotr, BitVec.toNat_or, BitVec.toNat_ushiftRight, BitVec.toNat_shiftLeft,
    Nat.shiftRight_eq_div_pow, Nat.shiftLeft_eq]

/-- At amount 0 the left-shifted half leaves the word altogether. -/
@[simp] theorem rotr_zero (x : Word) : rotr x 0 = x := by
  simp [rotr]

theorem toNat_shr (x : Word) (n : Nat) : (shr x n).toNat = x.toNat / 2 ^ n := by
  simp only [shr, BitVec.toNat_ushiftRight, Nat.shiftRight_eq_div_pow]

theorem rotr_eq_rotateRight (x : Word) {n : Nat} (hn : n < 32) : rotr x n = x.rotateRight n :=
  (BitVec.rotateRight_eq_rotateRightAux_of_lt hn).symm

/-- Below bit `32 - n` the rotated word shows the bits from `n` upwards, and from there on those that wrapped around:
both are bit `(i + n) mod 32`. -/
theorem getLsbD_rotr (x : Word) {n i : Nat} (hn : n < 32) (hi : i < 32) :
    (rotr x n).getLsbD i = x.getLsbD ((i + n) % 32) := by
  rw [rotr_eq_rotateRight x hn, BitVec.getLsbD_rotateRight_of_lt hn]
  by_cases hlow : i < 32 - n
  · have hmod : (i + n) % 32 = n + i := by omega
    simp [hlow, hmod]
  · have hmod : (i + n) % 32 = i - (32 - n) := by omega
    simp [hlow, hi, hmod]

/-- Settles O36: the numbers are read off the two shifts, and the bits come from the library's rotation, which `rotr` is
for `n` below 32. -/
theorem rotationAndShiftBitByBit : Obligations.RotationAndShiftBitByBit := by
  intro x n hn
  have hlt : n < 32 := by omega
  exact ⟨toNat_rotr x n, rotr_zero x, toNat_shr x n, fun _ hi => getLsbD_rotr x hlt hi⟩

end Sys2Proof.Machine
end

section
/-!
PROOFS. The command register (R24, R45). A write to CTRL acts through the command code alone: what the delivered
command does is a function of `v[3:0]` and of the state, whichever ignored bits the decoded instruction carries along.
-/
namespace Sys2Proof.Machine

/-- The state a command code leads to (R74 to R76). -/
def afterCommand (cmd : BitVec 4) (s : State) : State :=
  if cmd = 0x0#4 then s
  else if cmd = 0x1#4 then (if s.phase = .idle then acceptStart s else s)
  else reservedCommand s

/-- The three rows of reserved commands have one meaning, so only the codes 0x0 and 0x1 stand out. -/
theorem exec_decodeCmd (v : Word) (s : State) :
    exec (decodeCmd v) s = .next (afterCommand (cmdField v) s) := by
  unfold decodeCmd afterCommand
  by_cases hnop : cmdField v = 0x0#4
  · simp only [if_pos hnop]
    rfl
  by_cases hstart : cmdField v = 0x1#4
  · simp only [if_neg hnop, if_pos hstart]
    rfl
  · simp only [if_neg hnop, if_neg hstart]
    split_ifs <;> rfl

theorem cmdField_eq_iff {v v' : Word} : cmdField v = cmdField v' ↔ v.toNat % 16 = v'.toNat % 16 := by
  rw [← BitVec.toNat_inj, cmdField_toNat, cmdField_toNat]

theorem access_write_ctrl (v : Word) (s : State) :
    access ⟨.reg, .write v, 0x00, 32⟩ s = exec (decodeCmd v) s := rfl

theorem access_read_ctrl (s : State) : access ⟨.reg, .read, 0x00, 32⟩ s = .next (reply 0 s) := rfl

/-- Settles O5: a CTRL write delivers its decoded command, whose effect is a function of the low 4 bits. -/
theorem commandIsTheLowFourBits : Obligations.CommandIsTheLowFourBits := by
  refine ⟨fun v v' s hlow => ?_, access_write_ctrl, access_read_ctrl⟩
  rw [access_write_ctrl, access_write_ctrl, exec_decodeCmd, exec_decodeCmd, cmdField_eq_iff.mpr hlow]

end Sys2Proof.Machine
end

section
/-!
PROOFS. The register space (R34, R36). An access is 32 bits wide at the offset of a register and is then that register's
read or write, or it is refused. The two halves of `MSG_LEN` are read as numbers, so that a write of one says which part
of the length it keeps.
-/
namespace Sys2Proof.Machine

/-! ### Which accesses the register space takes -/

theorem access_write_of_regAt {o : Nat} {r : Reg} (h : regAt o = some r) (v : Word) (s : State) :
    access ⟨.reg, .write v, o, 32⟩ s = writeReg r v s := by
  simp [access, regAccess, h]

theorem access_read_of_regAt {o : Nat} {r : Reg} (h : regAt o = some r) (s : State) :
    access ⟨.reg, .read, o, 32⟩ s = .next (readReg r s) := by
  simp [access, regAccess, h]

theorem access_write_reg (r : Reg) (v : Word) (s : State) :
    access ⟨.reg, .write v, regOffset r, 32⟩ s = writeReg r v s :=
  access_write_of_regAt (regAt_regOffset r) v s

/-- No register refuses a word: even a command answers, for every code. -/
theorem writeReg_answers (r : Reg) (v : Word) (s : State) : ∃ t, writeReg r v s = .next t := by
  obtain ⟨-, hcommand⟩ | hignored | ⟨n, hlength⟩ := writeReg_cases r v s
  · exact ⟨_, hcommand.trans (exec_decodeCmd v s)⟩
  · exact ⟨s, hignored⟩
  · exact ⟨writeMsgLen n s, hlength⟩

theorem access_answers_of_regAt {o : Nat} {r : Reg} (h : regAt o = some r) (a : Access) (s : State) :
    ∃ t, access ⟨.reg, a, o, 32⟩ s = .next t := by
  cases a with
  | read => exact ⟨_, access_read_of_regAt h s⟩
  | write v => rw [access_write_of_regAt h v s]; exact writeReg_answers r v s

theorem access_refused_of_width {wd : Nat} (h : wd ≠ 32) (a : Access) (o : Nat) (s : State) :
    access ⟨.reg, a, o, wd⟩ s = .refused .registerAccessUndefined := by
  simp [access, regAccess, h]

theorem access_refused_of_regAt_none {o : Nat} (h : regAt o = none) (a : Access) (wd : Nat) (s : State) :
    access ⟨.reg, a, o, wd⟩ s = .refused .registerAccessUndefined := by
  simp [access, regAccess, h]

/-- Settles O28: the offsets R34 admits are those at which a register stands, and every register answers both reads and
writes. -/
theorem registerSpaceRefusesOtherAccesses : Obligations.RegisterSpaceRefusesOtherAccesses := by
  intro s a o wd
  constructor
  · rintro ⟨rfl, hoffset⟩
    obtain ⟨r, hr⟩ := Option.isSome_iff_exists.mp ((regAt_isSome_iff o).mpr hoffset)
    exact access_answers_of_regAt hr a s
  · intro hundefined
    by_cases hwidth : wd = 32
    · have hnone : regAt o = none := (regAt_none_iff o).mpr fun hoffset => hundefined ⟨hwidth, hoffset⟩
      exact access_refused_of_regAt_none hnone a wd s
    · exact access_refused_of_width hwidth a o s

/-! ### What a write stores -/

/-- Two words side by side, as the number they make. -/
theorem append_eq_ofNat (hi lo : Word) : (hi ++ lo : U64) = BitVec.ofNat 64 (hi.toNat * 2 ^ 32 + lo.toNat) := by
  apply BitVec.eq_of_toNat_eq
  have hfits : hi.toNat * 2 ^ 32 + lo.toNat < 2 ^ 64 := by omega
  rw [BitVec.toNat_append, ← Nat.shiftLeft_add_eq_or_of_lt lo.isLt, Nat.shiftLeft_eq, BitVec.toNat_ofNat,
    Nat.mod_eq_of_lt hfits]

theorem msgLenLo_toNat (n : U64) : (msgLenLo n).toNat = n.toNat % 2 ^ 32 := by
  simp [msgLenLo]

theorem msgLenHi_toNat (n : U64) : (msgLenHi n).toNat = n.toNat / 2 ^ 32 := by
  have hfits : n.toNat / 2 ^ 32 < 2 ^ 32 := by omega
  rw [msgLenHi, BitVec.extractLsb'_toNat, Nat.shiftRight_eq_div_pow, Nat.mod_eq_of_lt hfits]

theorem withMsgLenLo_eq (n : U64) (v : Word) :
    withMsgLenLo n v = BitVec.ofNat 64 (n.toNat / 2 ^ 32 * 2 ^ 32 + v.toNat) := by
  rw [withMsgLenLo, append_eq_ofNat, msgLenHi_toNat]

theorem withMsgLenHi_eq (n : U64) (v : Word) :
    withMsgLenHi n v = BitVec.ofNat 64 (v.toNat * 2 ^ 32 + n.toNat % 2 ^ 32) := by
  rw [withMsgLenHi, append_eq_ofNat, msgLenLo_toNat]

theorem access_write_msgLenLo (v : Word) (s : State) :
    access ⟨.reg, .write v, 0x08, 32⟩ s = .next (writeMsgLen (withMsgLenLo s.msgLen v) s) :=
  access_write_reg .msgLenLo v s

theorem access_write_msgLenHi (v : Word) (s : State) :
    access ⟨.reg, .write v, 0x0C, 32⟩ s = .next (writeMsgLen (withMsgLenHi s.msgLen v) s) :=
  access_write_reg .msgLenHi v s

/-- STATUS and the four reserved offsets ignore what is written to them. -/
theorem access_write_ignored {o : Nat} (ho : o ∈ [0x04, 0x30, 0x34, 0x38, 0x3C]) (v : Word) (s : State) :
    access ⟨.reg, .write v, o, 32⟩ s = .next s := by
  simp only [List.mem_cons, List.not_mem_nil, or_false] at ho
  obtain rfl | rfl | rfl | rfl | rfl := ho
  · exact access_write_reg .status v s
  · exact access_write_reg (.reserved 0) v s
  · exact access_write_reg (.reserved 1) v s
  · exact access_write_reg (.reserved 2) v s
  · exact access_write_reg (.reserved 3) v s

/-- Settles O27: each offset is a register's, and the two writes of `MSG_LEN` are dropped or stored by the phase. -/
theorem registerWritesTakeEffectOnlyWhereStated : Obligations.RegisterWritesTakeEffectOnlyWhereStated := by
  intro s v
  refine ⟨access_write_ctrl v s, fun o ho => access_write_ignored ho v s,
    fun i hi => access_write_reg (.digest ⟨i, hi⟩) v s, fun hbusy => ⟨?_, ?_⟩, fun hidle => ?_, fun hidle => ?_⟩
  · rw [access_write_msgLenLo, writeMsgLen_busy hbusy]
  · rw [access_write_msgLenHi, writeMsgLen_busy hbusy]
  · rw [access_write_msgLenLo, writeMsgLen_idle hidle, withMsgLenLo_eq]
  · rw [access_write_msgLenHi, writeMsgLen_idle hidle, withMsgLenHi_eq]

end Sys2Proof.Machine
end

section
/-!
PROOFS. The STATUS word (R47). Its number never wraps, so a field is read off the number: divide by the weight of the
field's lowest bit, and take the remainder at the field's width.
-/
namespace Sys2Proof.Machine

/-! ### A field of a word, read off the word's number -/

theorem extractLsb'_eq_of_div_mod {v : Word} {start len : Nat} {field : BitVec len}
    (h : v.toNat / 2 ^ start % 2 ^ len = field.toNat) : v.extractLsb' start len = field := by
  apply BitVec.eq_of_toNat_eq
  rw [BitVec.extractLsb'_toNat, Nat.shiftRight_eq_div_pow, h]

theorem getElem_eq_of_div_mod {v : Word} {i : Nat} (hi : i < 32) {flag : Bool}
    (h : v.toNat / 2 ^ i % 2 = flag.toNat) : v[i] = flag := by
  rw [BitVec.getElem_eq_testBit_toNat, Nat.testBit_eq_decide_div_mod_eq, h]
  cases flag <;> rfl

/-! ### The fields of the STATUS word -/

theorem busy_eq_true_iff (s : State) : busy s = true ↔ s.phase ≠ .idle := bne_iff_ne

theorem busy_toNat (s : State) : (busy s).toNat = if s.phase = .idle then 0 else 1 := by
  by_cases hidle : s.phase = .idle
  · rw [if_pos hidle, busy, hidle]; rfl
  · rw [if_neg hidle, (busy_eq_true_iff s).mpr hidle]; rfl

/-- The fields fill 11 bits at most, so the sum of R47 is the word's number. -/
theorem statusWord_toNat (s : State) :
    (statusWord s).toNat = s.phase.code.toNat * 2 ^ 8 + s.errcode.code.toNat * 2 ^ 4 + s.err.toNat * 2 ^ 2
      + s.done.toNat * 2 ^ 1 + (busy s).toNat := by
  rw [statusWord, BitVec.toNat_ofNat]
  apply Nat.mod_eq_of_lt
  have herr := s.err.toNat_lt
  have hdone := s.done.toNat_lt
  have hbusy := (busy s).toNat_lt
  omega

/-- Settles O25: the number of the STATUS word is R47's sum, and each field is what division of that sum leaves. -/
theorem statusWordFields : Obligations.StatusWordFields := by
  intro s
  have hword := statusWord_toNat s
  have herr := s.err.toNat_lt
  have hdone := s.done.toNat_lt
  have hbusy := (busy s).toNat_lt
  refine ⟨by rw [hword, busy_toNat], ?reserved, ?phase, ?errcode, ?bit3, ?err, ?done, ?busy⟩
  case reserved =>
    have hhigh : (statusWord s).toNat / 2 ^ 11 % 2 ^ 21 = 0 := by omega
    exact extractLsb'_eq_of_div_mod hhigh
  case phase => exact extractLsb'_eq_of_div_mod (by omega)
  case errcode => exact extractLsb'_eq_of_div_mod (by omega)
  case bit3 =>
    have hgap : (statusWord s).toNat / 2 ^ 3 % 2 = 0 := by omega
    exact getElem_eq_of_div_mod (by decide) hgap
  case err => exact getElem_eq_of_div_mod (by decide) (by omega)
  case done => exact getElem_eq_of_div_mod (by decide) (by omega)
  case busy =>
    have hbit : (statusWord s)[0] = busy s := getElem_eq_of_div_mod (by decide) (by omega)
    rw [hbit, busy_eq_true_iff]

end Sys2Proof.Machine
end

section
/-!
PROOFS. The padded byte `PadByte(n, i)` (R56). The definition answers once its operands are in range, and then its four
branches are the four ranges of `i`: one lemma each. The length field is read off as a number.
-/
namespace Sys2Proof.Machine

theorem beByte_toNat (k v j : Nat) : (beByte k v j).toNat = v / 2 ^ (8 * (k - 1 - j)) % 2 ^ 8 := by
  have hwidth : 8 * (k - 1 - j) + 7 - 8 * (k - 1 - j) + 1 = 8 := by omega
  rw [beByte, bits, hwidth, BitVec.toNat_ofNat, Nat.mod_mod]

/-- The marker stands before the 8 bytes of the length field. -/
theorem lt_padLen_sub_eight (n : Nat) : n < padLen n - 8 := by unfold padLen; omega

section
variable {m : Memory} {cap n i : Nat}

theorem padByte_message (hlen : lengthOk cap n) (hi : i < n) : padByte m cap n i = some (memRead m i) := by
  have hrange : i < padLen n := by have := lt_padLen_sub_eight n; omega
  rw [padByte, if_pos ⟨hlen, hrange⟩, if_pos hi]

theorem padByte_marker (hlen : lengthOk cap n) : padByte m cap n n = some 0x80#8 := by
  have hrange : n < padLen n := by have := lt_padLen_sub_eight n; omega
  rw [padByte, if_pos ⟨hlen, hrange⟩, if_neg (Nat.lt_irrefl n), if_pos rfl]

theorem padByte_zeros (hlen : lengthOk cap n) (hafter : n < i) (hi : i < padLen n - 8) :
    padByte m cap n i = some 0x00#8 := by
  have hrange : i < padLen n := by omega
  rw [padByte, if_pos ⟨hlen, hrange⟩, if_neg hafter.not_gt, if_neg hafter.ne', if_pos hi]

theorem padByte_lengthField (hlen : lengthOk cap n) (hfield : padLen n - 8 ≤ i) (hi : i < padLen n) :
    padByte m cap n i = some (beByte 8 (8 * n) (i - (padLen n - 8))) := by
  have hafter : n < i := (lt_padLen_sub_eight n).trans_le hfield
  rw [padByte, if_pos ⟨hlen, hi⟩, if_neg hafter.not_gt, if_neg hafter.ne', if_neg hfield.not_gt]

end

/-- Settles O42: one lemma per case; byte `i` of the length field starts at bit `8 * (N - 1 - i)` of `8 * n`, since the
definition counts the bytes from the field's start and the rule from the end of the padded message. -/
theorem padByteInItsFourCases : Obligations.PadByteInItsFourCases := by
  intro m cap n i hfits hbuffer hi
  have hlen : lengthOk cap n := ⟨hfits, hbuffer⟩
  refine ⟨padByte_message hlen, ?marker, padByte_zeros hlen,
    fun hfield => ⟨_, padByte_lengthField hlen hfield hi, ?field⟩⟩
  case marker =>
    rintro rfl
    exact padByte_marker hlen
  case field =>
    have hafter := lt_padLen_sub_eight n
    have hweight : 8 - 1 - (i - (padLen n - 8)) = padLen n - 1 - i := by omega
    rw [beByte_toNat, hweight]

end Sys2Proof.Machine
end

section
/-!
PROOFS. The four sigma functions (R61, R62, R65, R66). Exclusive or acts on each bit alone, so a bit of a sigma function
is read off the bits of its two rotations and of its rotation or shift.
-/
namespace Sys2Proof.Machine

/-- Beyond the word's last bit the library's `getLsbD` is `false`, which is the zero fill of R14. -/
theorem getLsbD_shr (x : Word) (n i : Nat) : (shr x n).getLsbD i = x.getLsbD (i + n) := by
  rw [shr, BitVec.getLsbD_ushiftRight, Nat.add_comm]

section
variable (x : Word) {i : Nat}

/-- One bit of a lower-case sigma function. -/
theorem getLsbD_rotr_xor_rotr_xor_shr {p q : Nat} (hp : p < 32) (hq : q < 32) (n : Nat) (hi : i < 32) :
    (rotr x p ^^^ rotr x q ^^^ shr x n).getLsbD i =
      ((x.getLsbD ((i + p) % 32) ^^ x.getLsbD ((i + q) % 32)) ^^ x.getLsbD (i + n)) := by
  rw [BitVec.getLsbD_xor, BitVec.getLsbD_xor, getLsbD_rotr x hp hi, getLsbD_rotr x hq hi, getLsbD_shr]

/-- One bit of an upper-case sigma function. -/
theorem getLsbD_rotr_xor_rotr_xor_rotr {p q n : Nat} (hp : p < 32) (hq : q < 32) (hn : n < 32) (hi : i < 32) :
    (rotr x p ^^^ rotr x q ^^^ rotr x n).getLsbD i =
      ((x.getLsbD ((i + p) % 32) ^^ x.getLsbD ((i + q) % 32)) ^^ x.getLsbD ((i + n) % 32)) := by
  rw [BitVec.getLsbD_xor, BitVec.getLsbD_xor, getLsbD_rotr x hp hi, getLsbD_rotr x hq hi, getLsbD_rotr x hn hi]

end

/-- Settles O38: each sigma function is one of the two shapes, at the amounts of its rule. -/
theorem sigmaFunctionsBitByBit : Obligations.SigmaFunctionsBitByBit := by
  intro x i hi
  refine ⟨?smallSigma0, ?smallSigma1, ?bigSigma0, ?bigSigma1⟩
  case smallSigma0 => exact getLsbD_rotr_xor_rotr_xor_shr x (by decide) (by decide) 3 hi
  case smallSigma1 => exact getLsbD_rotr_xor_rotr_xor_shr x (by decide) (by decide) 10 hi
  case bigSigma0 => exact getLsbD_rotr_xor_rotr_xor_rotr x (by decide) (by decide) (by decide) hi
  case bigSigma1 => exact getLsbD_rotr_xor_rotr_xor_rotr x (by decide) (by decide) (by decide) hi

end Sys2Proof.Machine
end

section
/-!
PROOFS. The message schedule of a block (R63). One turn of the second loop writes one word, so a word once written stands
to the end: the whole schedule agrees with every shorter run of the loop on the words that run has filled. Each word of
the schedule then comes from the turn that wrote it.
-/
namespace Sys2Proof.Machine

/-! ### The second loop -/

section
variable (w : Vector Word 64)

/-- A turn of the loop leaves every word but its own. -/
theorem expandWords_succ_getElem_of_ne {k j : Nat} (hj : j < 64) (hne : j ≠ 16 + k) :
    (expandWords (k + 1) w)[j] = (expandWords k w)[j] := by
  rw [expandWords, Vector.getElem_setIfInBounds_ne hj hne.symm]

/-- A turn of the loop writes its own word from the four words of the recurrence, all of them written before. -/
theorem expandWords_succ_getElem_self {k : Nat} (hk : k < 48) :
    (expandWords (k + 1) w)[16 + k] = scheduleSum (expandWords k w)[14 + k] (expandWords k w)[9 + k]
      (expandWords k w)[1 + k] (expandWords k w)[k] := by
  rw [expandWords, Vector.getElem_setIfInBounds_self, getD_eq, getD_eq, getD_eq, getD_eq]

/-- What the first `k` turns have filled, no later turn changes. -/
theorem expandWords_getElem_of_le {k m j : Nat} (hkm : k ≤ m) (hj : j < 64) (hfilled : j < 16 + k) :
    (expandWords m w)[j] = (expandWords k w)[j] := by
  induction m, hkm using Nat.le_induction with
  | base => rfl
  | succ m hkm ih => rw [expandWords_succ_getElem_of_ne w hj (by omega), ih]

/-- The recurrence holds within the whole schedule, since the four words it reads no longer change. -/
theorem expandWords_getElem_recurrence {k m : Nat} (hkm : k < m) (hk : k < 48) :
    (expandWords m w)[16 + k] = scheduleSum (expandWords m w)[14 + k] (expandWords m w)[9 + k]
      (expandWords m w)[1 + k] (expandWords m w)[k] := by
  have hstable {j : Nat} (hj : j < 64) (hfilled : j < 16 + k) : (expandWords m w)[j] = (expandWords k w)[j] :=
    expandWords_getElem_of_le w hkm.le hj hfilled
  rw [expandWords_getElem_of_le w hkm (by omega) (by omega), expandWords_succ_getElem_self w hk,
    hstable (j := 14 + k) (by omega) (by omega), hstable (j := 9 + k) (by omega) (by omega),
    hstable (j := 1 + k) (by omega) (by omega), hstable (j := k) (by omega) (by omega)]

end

/-! ### The first loop -/

/-- Four bytes never overflow the word they make. -/
theorem be32_toNat (b0 b1 b2 b3 : Byte) :
    (be32 b0 b1 b2 b3).toNat = b0.toNat * 2 ^ 24 + b1.toNat * 2 ^ 16 + b2.toNat * 2 ^ 8 + b3.toNat := by
  rw [be32, BitVec.toNat_ofNat]
  apply Nat.mod_eq_of_lt
  omega

/-- The second loop leaves the words of the first. -/
theorem expand_getElem_of_lt_sixteen (b : List Byte) {j : Nat} (hj : j < 16) :
    (expand b)[j] = be32 (b.getD (4 * j) 0) (b.getD (4 * j + 1) 0) (b.getD (4 * j + 2) 0) (b.getD (4 * j + 3) 0) := by
  rw [expand, expandWords_getElem_of_le _ (Nat.zero_le 48) (by omega) hj, expandWords, replaceFirst16_getElem, if_pos hj,
    loadWord, Nat.zero_add]

/-- Settles O45: the first loop packs words 0 to 15, and the recurrence at `t` is the turn `t - 16` of the second. -/
theorem scheduleFollowsTheRecurrence : Obligations.ScheduleFollowsTheRecurrence := by
  intro b _
  constructor
  · intro j _ hj
    rw [expand_getElem_of_lt_sixteen b hj, be32_toNat]
  · intro t ht hlow
    obtain ⟨k, rfl⟩ := Nat.exists_eq_add_of_le hlow
    have h2 : 16 + k - 2 = 14 + k := by omega
    have h7 : 16 + k - 7 = 9 + k := by omega
    have h15 : 16 + k - 15 = 1 + k := by omega
    have h16 : 16 + k - 16 = k := by omega
    simp only [h2, h7, h15, h16]
    exact expandWords_getElem_recurrence _ (by omega) (by omega)

end Sys2Proof.Machine
end

section
/-!
PROOFS. Choose and majority (R67, R68). Both act on each bit alone, so each is a function of three Booleans, decided by
cases.
-/
namespace Sys2Proof.Machine

section
variable (x y z : Word) (i : Nat)

/-- Choose is a multiplexer on every bit; beyond the word's last bit all three operands read `false`. -/
theorem getLsbD_ch : (ch x y z).getLsbD i = if x.getLsbD i then y.getLsbD i else z.getLsbD i := by
  by_cases hi : i < 32
  · rw [ch, BitVec.getLsbD_xor, BitVec.getLsbD_and, BitVec.getLsbD_and, BitVec.getLsbD_not]
    cases x.getLsbD i <;> simp [hi]
  · have hge : 32 ≤ i := Nat.le_of_not_lt hi
    simp [BitVec.getLsbD_of_ge _ i hge]

/-- The exclusive or of the three products is the majority of three Booleans. -/
theorem xor_and_eq_majority (p q r : Bool) :
    ((p && q) ^^ (p && r) ^^ (q && r)) = decide (2 ≤ p.toNat + q.toNat + r.toNat) := by
  revert p q r; decide

theorem getLsbD_maj :
    (maj x y z).getLsbD i = decide (2 ≤ (x.getLsbD i).toNat + (y.getLsbD i).toNat + (z.getLsbD i).toNat) := by
  rw [← xor_and_eq_majority, maj, BitVec.getLsbD_xor, BitVec.getLsbD_xor, BitVec.getLsbD_and, BitVec.getLsbD_and,
    BitVec.getLsbD_and]

end

/-- Settles O37: the repository's formula never reads `~x`, so at `x = 0` it gives 0 where choose gives `z`. -/
theorem chooseAndMajorityBitByBit : Obligations.ChooseAndMajorityBitByBit := by
  have hrepository : ch 0 0 1 ≠ (0 &&& 0) ^^^ (0 &&& 1) := by decide
  exact ⟨getLsbD_ch, getLsbD_maj, 0, 0, 1, hrepository⟩

end Sys2Proof.Machine
end

section
/-!
PROOFS. The compressor (R69 to R71, R81): one ROUND step, and the 64 rounds of a compression. The definition of a round is
the simultaneous assignment of R69; what is left to show is that its constant and schedule word are table entries, never
the defaults of a read out of range, and how the round index counts.
-/
namespace Sys2Proof.Machine

/-! ### One ROUND step -/

/-- The index counts modulo 128. -/
theorem index_add_one (t : Index) : t + 1#7 = BitVec.ofNat 7 (t.toNat + 1) := by
  rw [BitVec.ofNat_add, BitVec.ofNat_toNat, BitVec.setWidth_eq]

theorem index_eq_sixtyThree_iff (t : Index) : t = 63#7 ↔ t.toNat + 1 = 64 := by
  rw [← BitVec.toNat_inj, BitVec.toNat_ofNat]
  omega

/-- Settles O13: ROUND with an index in range is one round; the new index is 64 exactly after the last one. -/
theorem roundMixesTheWorkingRegisters : Obligations.RoundMixesTheWorkingRegisters := by
  intro s hindex
  have hround : exec .round s = execRound s := rfl
  rw [hround, execRound_inRange hindex, index_add_one]
  simp only [index_eq_sixtyThree_iff]
  rfl

/-! ### The 64 rounds -/

/-- Loading the working registers copies the hash state. -/
@[simp] theorem toVector_ofHash (hs : Vector Word 8) : (Work.ofHash hs).toVector = hs := by
  ext i hi
  interval_cases i <;> rfl

/-- Each of the 64 rounds takes its own constant and schedule word. -/
theorem rounds_succ {t : Nat} (ht : t < 64) (w : Vector Word 64) (r : Work) :
    rounds (t + 1) w r = roundStep romK[t] w[t] (rounds t w r) := by
  rw [rounds, getD_eq ht, getD_eq ht]

theorem compress_getElem (hs : Vector Word 8) (w : Vector Word 64) {i : Nat} (hi : i < 8) :
    (compress hs w)[i] = (rounds 64 w (Work.ofHash hs)).toVector[i] + hs[i] := by
  rw [compress, feedForward_getElem, BitVec.add_comm]

/-- Settles O46: the sequence of R70 is that of the working registers after each number of rounds. -/
theorem compressionIsSixtyFourRoundsAndFeedForward : Obligations.CompressionIsSixtyFourRoundsAndFeedForward := by
  intro hs w
  exact ⟨fun t => rounds t w (Work.ofHash hs), toVector_ofHash hs, fun _ ht => rounds_succ ht w (Work.ofHash hs),
    fun _ hi => compress_getElem hs w hi⟩

end Sys2Proof.Machine
end

section
/-!
PROOFS. The digest (R72, R83). Word `i` of the hash state stands in bytes `4*i` to `4*i + 3` of the digest, so a byte's
place gives back its word and its place within the word.
-/
namespace Sys2Proof.Machine

theorem assembleDigest_getElem (hs : Vector Word 8) {i j : Nat} (hi : i < 8) (hj : j < 4) :
    (assembleDigest hs)[4 * i + j] = beByte 4 hs[i].toNat j := by
  have hword : (4 * i + j) / 4 = i := by omega
  have hplace : (4 * i + j) % 4 = j := by omega
  simp only [assembleDigest, Vector.getElem_ofFn, hword, hplace]

/-- Byte `j` of a word, most significant first, starts at bit `24 - 8 * j`. -/
theorem assembleDigest_getElem_toNat (hs : Vector Word 8) {i j : Nat} (hi : i < 8) (hj : j < 4) :
    (assembleDigest hs)[4 * i + j].toNat = hs[i].toNat / 2 ^ (24 - 8 * j) % 2 ^ 8 := by
  have hweight : 8 * (4 - 1 - j) = 24 - 8 * j := by omega
  rw [assembleDigest_getElem hs hi hj, beByte_toNat, hweight]

/-- Settles O16: what ASSEMBLE writes into `DOUT` is `Assemble(HS)`, whose bytes are those of the words of `HS`. -/
theorem assembleWritesTheDigest : Obligations.AssembleWritesTheDigest := by
  intro s
  have hassemble : exec .assemble s = execAssemble s := rfl
  refine ⟨assembleDigest s.hs, ?step, fun _ _ hi hj => assembleDigest_getElem_toNat s.hs hi hj⟩
  rw [hassemble, execAssemble]

end Sys2Proof.Machine
end

section
/-!
PROOFS. The commands (R74 to R76). A CTRL word delivers NOP or START for their one code each and a reserved command for
all others; START and the reserved commands have an effect only in IDLE.
-/
namespace Sys2Proof.Machine

/-! ### Which words deliver which command -/

theorem cmdField_eq_iff_mod {v : Word} {cmd : BitVec 4} : cmdField v = cmd ↔ v.toNat % 16 = cmd.toNat := by
  rw [← BitVec.toNat_inj, cmdField_toNat]

theorem decodeCmd_nop {v : Word} (h : cmdField v = 0x0#4) : decodeCmd v = .nop (ignoredField v) := if_pos h

theorem decodeCmd_start {v : Word} (h : cmdField v = 0x1#4) : decodeCmd v = .start (ignoredField v) := by
  rw [decodeCmd, if_neg (by simp [h]), if_pos h]

/-- Past the codes 0x0 and 0x1, the two masks only choose among the three reserved rows. -/
theorem decodeCmd_reserved {v : Word} (hnop : cmdField v ≠ 0x0#4) (hstart : cmdField v ≠ 0x1#4) :
    decodeCmd v = .reservedCmd2_3 (ignoredField v) (cmdField v) ∨
      decodeCmd v = .reservedCmd4_7 (ignoredField v) (cmdField v) ∨
      decodeCmd v = .reservedCmd8_15 (ignoredField v) (cmdField v) := by
  rw [decodeCmd, if_neg hnop, if_neg hstart]
  split_ifs
  · exact .inl rfl
  · exact .inr (.inl rfl)
  · exact .inr (.inr rfl)

/-! ### What the commands do -/

theorem exec_start_idle {s : State} (h : s.phase = .idle) (ign : BitVec 28) :
    exec (.start ign) s = .next (acceptStart s) := congrArg _ (if_pos h)

theorem exec_start_busy {s : State} (h : s.phase ≠ .idle) (ign : BitVec 28) : exec (.start ign) s = .next s :=
  congrArg _ (if_neg h)

/-- The three reserved rows have one meaning. -/
theorem exec_reservedCmd (ign : BitVec 28) (cmd : BitVec 4) (s : State) :
    exec (.reservedCmd2_3 ign cmd) s = .next (reservedCommand s) ∧
      exec (.reservedCmd4_7 ign cmd) s = .next (reservedCommand s) ∧
      exec (.reservedCmd8_15 ign cmd) s = .next (reservedCommand s) := ⟨rfl, rfl, rfl⟩

/-- Settles O6: the code 0x0 decodes to NOP, whose meaning is the state itself. -/
theorem nopLeavesTheStateUnchanged : Obligations.NopLeavesTheStateUnchanged :=
  ⟨fun v hcode => ⟨ignoredField v, decodeCmd_nop (cmdField_eq_iff_mod.mpr hcode)⟩, fun _ _ => rfl⟩

/-- Settles O7: the code 0x1 decodes to START, whose condition on the phase is that of R75. -/
theorem startIsAcceptedOnlyWhenIdle : Obligations.StartIsAcceptedOnlyWhenIdle :=
  ⟨fun v hcode => ⟨ignoredField v, decodeCmd_start (cmdField_eq_iff_mod.mpr hcode)⟩,
    fun ign _ hidle => exec_start_idle hidle ign, fun ign _ hbusy => exec_start_busy hbusy ign⟩

/-- Settles O8: a code of at least 2 is neither NOP's nor START's, and the one meaning of the reserved rows is error entry
when idle. -/
theorem reservedCommandsRaiseBadCmdOnlyWhenIdle : Obligations.ReservedCommandsRaiseBadCmdOnlyWhenIdle := by
  refine ⟨fun v hcode => ?decoded, fun ign cmd s hidle => ?idle, fun ign cmd s hbusy => ?busy⟩
  case decoded =>
    have hne {cmd : BitVec 4} (hsmall : cmd.toNat < 2) : cmdField v ≠ cmd := by
      intro heq
      have hmod := cmdField_eq_iff_mod.mp heq
      omega
    exact ⟨_, _, decodeCmd_reserved (hne (by decide)) (hne (by decide))⟩
  case idle =>
    obtain ⟨h2, h4, h8⟩ := exec_reservedCmd ign cmd s
    rw [reservedCommand_idle hidle] at h2 h4 h8
    exact ⟨h2, h4, h8, raiseError_statusWord .badCmd s⟩
  case busy =>
    have hreserved := exec_reservedCmd ign cmd s
    rwa [reservedCommand_busy hbusy] at hreserved

end Sys2Proof.Machine
end

section
/-!
PROOFS. CHECK, LOAD, EXPAND, FEED and the reserved phase (R78 to R80, R82, R84), each on the operands its rule admits.
There every byte and word an operation reads exists, so that no free value enters, and indices count without wrapping.
-/
namespace Sys2Proof.Machine

/-! ### CHECK -/

theorem execCheck_overflow {s : State} (h : 2 ^ 61 ≤ s.msgLen.toNat) :
    execCheck s = .next (raiseError .lenOverflow s) := if_pos h

theorem execCheck_tooBig {s : State} (h : s.msgLen.toNat < 2 ^ 61) (hbig : s.params.msgMaxBytes < s.msgLen.toNat) :
    execCheck s = .next (raiseError .lenTooBig s) := by
  rw [execCheck, if_neg h.not_ge, if_pos hbig]

theorem execCheck_accepted {s : State} (h : lengthOk s.params.msgMaxBytes s.msgLen.toNat) :
    execCheck s = .next { s with
      nblk := BitVec.ofNat 64 (nBlocks s.msgLen.toNat), blk := 0#64, hs := romIV, phase := .load } := by
  obtain ⟨-, haccept⟩ | ⟨hreject, -⟩ := execCheck_cases s
  · exact haccept
  · exact absurd h hreject

/-- Settles O10: one lemma per case of R78; error entry leaves the code and `ERR` alone in STATUS. -/
theorem checkValidatesTheLengthThenInitialises : Obligations.CheckValidatesTheLengthThenInitialises := by
  intro s
  refine ⟨fun hover => ⟨execCheck_overflow hover, raiseError_statusWord .lenOverflow s⟩,
    fun hfits hbig => ⟨execCheck_tooBig hfits hbig, raiseError_statusWord .lenTooBig s⟩, fun hfits hbuffer => ?_⟩
  have haccept := execCheck_accepted ⟨hfits, hbuffer⟩
  rw [nBlocks_eq] at haccept
  exact haccept

/-! ### LOAD -/

/-- In range, the byte LOAD reads is the one R56 states, not a free one. -/
theorem padByte_eq_some_loadByte {s : State} {i : Nat} (h : lengthOk s.params.msgMaxBytes s.msgLen.toNat)
    (hi : i < padLen s.msgLen.toNat) :
    padByte s.msg s.params.msgMaxBytes s.msgLen.toNat i = some (loadByte s i) := by
  obtain ⟨b, hb⟩ := Option.isSome_iff_exists.mp (padByte_isSome (m := s.msg) h hi)
  rw [loadByte, hb, Option.getD_some]

theorem loadWord_toNat (byteAt : Nat → Byte) (base j : Nat) :
    (loadWord byteAt base j).toNat = (byteAt (base + 4 * j)).toNat * 2 ^ 24 + (byteAt (base + 4 * j + 1)).toNat * 2 ^ 16
      + (byteAt (base + 4 * j + 2)).toNat * 2 ^ 8 + (byteAt (base + 4 * j + 3)).toNat := be32_toNat _ _ _ _

/-- Settles O11: the 64 bytes of a block of the message lie within the padded message, so LOAD packs the bytes of R56. -/
theorem loadPacksTheBlockAndCopiesTheHashState : Obligations.LoadPacksTheBlockAndCopiesTheHashState := by
  intro s hlen hblk
  refine ⟨_, execLoad_inRange ⟨hlen, hblk⟩, fun j hj hlow => ?packed, fun j hj hhigh => ?kept⟩
  case packed =>
    have hbyte {i : Nat} (hi : i < 64 * s.blk.toNat + 64) :
        padByte s.msg s.params.msgMaxBytes s.msgLen.toNat i = some (loadByte s i) :=
      padByte_eq_some_loadByte hlen (by rw [padLen_eq_nBlocks]; omega)
    refine ⟨_, _, _, _, hbyte (by omega), hbyte (by omega), hbyte (by omega), hbyte (by omega), ?_⟩
    rw [replaceFirst16_getElem, if_pos hlow, loadWord_toNat]
  case kept => rw [replaceFirst16_getElem, if_neg hhigh.not_gt]

/-! ### EXPAND -/

/-- Settles O12: the schedule index is 63 exactly when its successor is 64. -/
theorem expandComputesOneScheduleWord : Obligations.ExpandComputesOneScheduleWord := by
  intro s hlow hhigh
  have hexpand : exec .expand s = execExpand s := rfl
  rw [hexpand, execExpand_inRange hlow hhigh, index_add_one]
  simp only [index_eq_sixtyThree_iff]
  rfl

/-! ### FEED -/

/-- `BLK + 1` does not wrap, so the comparison with `NBLK` is one of numbers. -/
theorem execFeed_inRange {s : State} (h : s.blk.toNat + 1 < 2 ^ 64) :
    execFeed s = .next { s with
      hs := feedForward s.hs s.work
      blk := BitVec.ofNat 64 (s.blk.toNat + 1)
      phase := if s.blk.toNat + 1 < s.nblk.toNat then .load else .assemble } := by
  have hmax : s.blk ≠ BitVec.allOnes 64 := fun hall => by simp [hall] at h
  have hsucc : s.blk + 1#64 = BitVec.ofNat 64 (s.blk.toNat + 1) := by
    rw [BitVec.ofNat_add, BitVec.ofNat_toNat, BitVec.setWidth_eq]
  rw [execFeed, nextBlock_eq hmax, if_neg hmax, hsucc]
  simp only [BitVec.lt_def, BitVec.toNat_ofNat, Nat.mod_eq_of_lt h]

/-- Settles O14: the feed-forward is that of R82 word for word. -/
theorem feedAddsAndMovesToTheNextBlock : Obligations.FeedAddsAndMovesToTheNextBlock :=
  fun _ hfits => execFeed_inRange hfits

/-! ### The reserved phase -/

/-- Settles O17: the reserved phase selects the operation that enters the error INTERNAL. -/
theorem reservedPhaseRaisesInternal : Obligations.ReservedPhaseRaisesInternal := by
  intro s
  refine ⟨rfl, raiseError_statusWord .internal s, fun hphase => ?_⟩
  rw [fetch_phase, hphase]
  rfl

end Sys2Proof.Machine
end

section
/-!
PROOFS. `Hash(M)` (R73). The hash state after `k` blocks is the fold of the compression over the first `k` of them.
-/
namespace Sys2Proof.Machine

theorem absorb_eq_foldl (p : List Byte) (k : Nat) :
    absorb p k = ((List.range k).map (block p)).foldl (fun hs b => compress hs (expand b)) romIV := by
  induction k with
  | zero => rfl
  | succ k ih =>
    rw [absorb, ih, List.range_succ, List.map_append, List.foldl_append]
    rfl

/-- Settles O47: `Parse` lists the blocks in the order in which the hash absorbs them. -/
theorem hashFoldsTheCompressionOverTheBlocks : Obligations.HashFoldsTheCompressionOverTheBlocks := by
  intro m _
  rw [hashMessage, absorb_eq_foldl, parse]

end Sys2Proof.Machine
end

section
/-!
PROOFS. Error entry (R87). `raiseError` is the one way into an error: every other outcome of an operation clears `ERR`
(an accepted START) or keeps `ERR` and `ERRCODE` as they stand.
-/
namespace Sys2Proof.Machine

/-- What an operation can do to the error flags: error entry under a code, `ERR` cleared, or both flags kept. -/
def ErrorFlagsStep (s t : State) : Prop :=
  (∃ c, c ≠ ErrCode.none ∧ t = raiseError c s) ∨ t.err = false ∨ (t.err = s.err ∧ t.errcode = s.errcode)

theorem errorFlagsStep_raiseError {c : ErrCode} (h : c ≠ .none) (s : State) : ErrorFlagsStep s (raiseError c s) :=
  .inl ⟨c, h, rfl⟩

theorem errorFlagsStep_of_kept {s t : State} (herr : t.err = s.err) (hcode : t.errcode = s.errcode) :
    ErrorFlagsStep s t := .inr (.inr ⟨herr, hcode⟩)

theorem errorFlagsStep_reservedCommand (s : State) : ErrorFlagsStep s (reservedCommand s) := by
  by_cases hidle : s.phase = .idle
  · rw [reservedCommand_idle hidle]
    exact errorFlagsStep_raiseError (by decide) s
  · rw [reservedCommand_busy hidle]
    exact errorFlagsStep_of_kept rfl rfl

theorem errorFlagsStep_start {ign : BitVec 28} {s t : State} (h : exec (.start ign) s = .next t) :
    ErrorFlagsStep s t := by
  by_cases hidle : s.phase = .idle
  · cases (exec_start_idle hidle ign).symm.trans h
    exact .inr (.inl (acceptStart_err s))
  · cases (exec_start_busy hidle ign).symm.trans h
    exact errorFlagsStep_of_kept rfl rfl

theorem errorFlagsStep_check {s t : State} (h : exec .check s = .next t) : ErrorFlagsStep s t := by
  obtain ⟨-, haccept⟩ | ⟨-, hoverflow | htooBig⟩ := execCheck_cases s
  · cases haccept.symm.trans h
    exact errorFlagsStep_of_kept rfl rfl
  · cases hoverflow.symm.trans h
    exact errorFlagsStep_raiseError (by decide) s
  · cases htooBig.symm.trans h
    exact errorFlagsStep_raiseError (by decide) s

theorem exec_errorFlagsStep {i : Instr} {s t : State} (h : exec i s = .next t) : ErrorFlagsStep s t := by
  cases i with
  | start => exact errorFlagsStep_start h
  | check => exact errorFlagsStep_check h
  | reservedCmd2_3 | reservedCmd4_7 | reservedCmd8_15 => cases h; exact errorFlagsStep_reservedCommand s
  | reservedPhase7 => cases h; exact errorFlagsStep_raiseError (by decide) s
  | nop | idle | load | expand | round | feed | assemble => cases h; exact errorFlagsStep_of_kept rfl rfl

/-- An operation that ends with `ERR` set where it was clear, or under another code, is an error entry. -/
theorem eq_raiseError_of_newError {i : Instr} {s t : State} (h : exec i s = .next t) (herr : t.err = true)
    (hnew : s.err = false ∨ t.errcode ≠ s.errcode) : ∃ c, c ≠ .none ∧ t = raiseError c s := by
  obtain hentry | hclear | ⟨hsame, hcode⟩ := exec_errorFlagsStep h
  · exact hentry
  · simp [hclear] at herr
  · obtain hfalse | hother := hnew
    · simp [hsame, hfalse] at herr
    · exact absurd hcode hother

/-- Settles O20: an operation that leaves a new error has the state of `raiseError`, whose code is then the one it
shows. -/
theorem errorEntryIsPrecise : Obligations.ErrorEntryIsPrecise := by
  refine ⟨fun _ _ => rfl, fun i s t hexec herr hnew => ?_⟩
  obtain ⟨c, hcode, rfl⟩ := eq_raiseError_of_newError hexec herr hnew
  exact ⟨rfl, hcode⟩

end Sys2Proof.Machine
end

section
/-!
PROOFS. The encodings (R45, R46, R48, R50). A CTRL word is its ignored bits and its code put together, and the code alone
decides the row; the 8 phase codes and the 16 command codes are then small enough to go through.
-/
namespace Sys2Proof.Machine

/-! ### The rows of the reserved commands -/

theorem decodeCmd_reservedCmd2_3 {v : Word} (h : cmdField v &&& 0xE#4 = 0x2#4) :
    decodeCmd v = .reservedCmd2_3 (ignoredField v) (cmdField v) := by
  have hnop : cmdField v ≠ 0x0#4 := fun h0 => absurd (h0 ▸ h) (by decide)
  have hstart : cmdField v ≠ 0x1#4 := fun h1 => absurd (h1 ▸ h) (by decide)
  rw [decodeCmd, if_neg hnop, if_neg hstart, if_pos h]

theorem decodeCmd_reservedCmd4_7 {v : Word} (h : cmdField v &&& 0xC#4 = 0x4#4) :
    decodeCmd v = .reservedCmd4_7 (ignoredField v) (cmdField v) := by
  have hother : cmdField v ≠ 0x0#4 ∧ cmdField v ≠ 0x1#4 ∧ cmdField v &&& 0xE#4 ≠ 0x2#4 := by
    revert h
    generalize cmdField v = cmd
    revert cmd
    decide
  obtain ⟨hnop, hstart, h23⟩ := hother
  rw [decodeCmd, if_neg hnop, if_neg hstart, if_neg h23, if_pos h]

theorem decodeCmd_reservedCmd8_15 {v : Word} (h : cmdField v &&& 0x8#4 = 0x8#4) :
    decodeCmd v = .reservedCmd8_15 (ignoredField v) (cmdField v) := by
  have hother : cmdField v ≠ 0x0#4 ∧ cmdField v ≠ 0x1#4 ∧ cmdField v &&& 0xE#4 ≠ 0x2#4 ∧
      cmdField v &&& 0xC#4 ≠ 0x4#4 := by
    revert h
    generalize cmdField v = cmd
    revert cmd
    decide
  obtain ⟨hnop, hstart, h23, h47⟩ := hother
  rw [decodeCmd, if_neg hnop, if_neg hstart, if_neg h23, if_neg h47]

/-- Every code is that of one of the five rows of format CMD. -/
theorem cmdCode_cases (cmd : BitVec 4) :
    cmd = 0x0#4 ∨ cmd = 0x1#4 ∨ cmd &&& 0xE#4 = 0x2#4 ∨ cmd &&& 0xC#4 = 0x4#4 ∨ cmd &&& 0x8#4 = 0x8#4 := by
  revert cmd; decide

/-! ### Decoding and encoding are inverse -/

theorem decode_encode {i : Instr} (h : i.wellFormed = true) : decode (encode i) = i := by
  cases i with
  | nop ign => simpa [encode, decode] using decodeCmd_nop (cmdField_append ign 0x0#4)
  | start ign => simpa [encode, decode] using decodeCmd_start (cmdField_append ign 0x1#4)
  | reservedCmd2_3 ign cmd =>
    have hrow : cmd &&& 0xE#4 = 0x2#4 := by simpa [Instr.wellFormed] using h
    simpa [encode, decode] using decodeCmd_reservedCmd2_3 (v := ign ++ cmd) (by rwa [cmdField_append])
  | reservedCmd4_7 ign cmd =>
    have hrow : cmd &&& 0xC#4 = 0x4#4 := by simpa [Instr.wellFormed] using h
    simpa [encode, decode] using decodeCmd_reservedCmd4_7 (v := ign ++ cmd) (by rwa [cmdField_append])
  | reservedCmd8_15 ign cmd =>
    have hrow : cmd &&& 0x8#4 = 0x8#4 := by simpa [Instr.wellFormed] using h
    simpa [encode, decode] using decodeCmd_reservedCmd8_15 (v := ign ++ cmd) (by rwa [cmdField_append])
  | idle | check | load | expand | round | feed | assemble | reservedPhase7 => rfl

/-- Settles O1: the two fields are read back from the word put together, and the row's code selects the row. -/
theorem decodingInvertsEncoding : Obligations.DecodingInvertsEncoding := fun _ hwf => decode_encode hwf

theorem decodeCmd_wellFormed (v : Word) : (decodeCmd v).wellFormed = true := by
  obtain h | h | h | h | h := cmdCode_cases (cmdField v)
  · rw [decodeCmd_nop h]; rfl
  · rw [decodeCmd_start h]; rfl
  · rw [decodeCmd_reservedCmd2_3 h]; exact beq_iff_eq.mpr h
  · rw [decodeCmd_reservedCmd4_7 h]; exact beq_iff_eq.mpr h
  · rw [decodeCmd_reservedCmd8_15 h]; exact beq_iff_eq.mpr h

theorem encode_decodeCmd (v : Word) : encode (decodeCmd v) = .cmd v := by
  have hword := congrArg OpWord.cmd (ignoredField_append_cmdField v)
  obtain h | h | h | h | h := cmdCode_cases (cmdField v)
  · rw [decodeCmd_nop h]; rwa [h] at hword
  · rw [decodeCmd_start h]; rwa [h] at hword
  · rw [decodeCmd_reservedCmd2_3 h]; exact hword
  · rw [decodeCmd_reservedCmd4_7 h]; exact hword
  · rw [decodeCmd_reservedCmd8_15 h]; exact hword

/-- Settles O2: each row keeps the code and the ignored bits of its word. -/
theorem encodingInvertsDecoding : Obligations.EncodingInvertsDecoding := by
  rintro (v | p)
  · exact ⟨decodeCmd_wellFormed v, encode_decodeCmd v⟩
  · revert p; decide

/-! ### The rows of the table -/

/-- A CTRL word whose ignored bits are 0. -/
def codeWord (cmd : BitVec 4) : Word := 0#28 ++ cmd

@[simp] theorem cmdField_codeWord (cmd : BitVec 4) : cmdField (codeWord cmd) = cmd := cmdField_append 0#28 cmd

theorem and_low_mask (v : Word) : v &&& 0xF = codeWord (cmdField v) := by
  apply BitVec.eq_of_toNat_eq
  have hcode : (codeWord (cmdField v)).toNat = v.toNat % 16 := by
    rw [codeWord, BitVec.toNat_append, cmdField_toNat]; simp
  rw [hcode, BitVec.toNat_and]
  exact Nat.and_two_pow_sub_one_eq_mod v.toNat 4

/-- No row looks at the ignored bits. -/
theorem covers_codeWord {r : OpRow} (hr : r ∈ opTable) (v : Word) :
    r.covers (.cmd v) = r.covers (.cmd (codeWord (cmdField v))) := by
  have hmask : r.mask = 0xF &&& r.mask := by revert r; decide
  have hand : v &&& r.mask = codeWord (cmdField v) &&& r.mask := by
    rw [hmask, ← BitVec.and_assoc, ← BitVec.and_assoc, and_low_mask, and_low_mask, cmdField_codeWord]
  rw [OpRow.covers, OpRow.covers, hand]

theorem opRow_decodeCmd_codeWord (v : Word) : opRow (decodeCmd v) = opRow (decodeCmd (codeWord (cmdField v))) := by
  simp only [decodeCmd, cmdField_codeWord]
  split_ifs <;> rfl

/-- The word `o` lies in one row of the table, that of its instruction. -/
def LiesInItsRowOnly (o : OpWord) : Prop :=
  opRow (decode o) ∈ opTable ∧ ∀ r ∈ opTable, r.covers o = true ↔ r = opRow (decode o)

theorem codeWord_liesInItsRowOnly (cmd : BitVec 4) : LiesInItsRowOnly (.cmd (codeWord cmd)) := by
  unfold LiesInItsRowOnly; revert cmd; decide

theorem phase_liesInItsRowOnly (p : BitVec 3) : LiesInItsRowOnly (.phase p) := by
  unfold LiesInItsRowOnly; revert p; decide

/-- Settles O3: row and coverage depend on the code alone, and the 16 command codes and 8 phase codes are gone through. -/
theorem everyWordLiesInExactlyOneRow : Obligations.EveryWordLiesInExactlyOneRow := by
  rintro (v | p)
  · obtain ⟨hmem, hrows⟩ := codeWord_liesInItsRowOnly (cmdField v)
    have hrow : opRow (decode (.cmd v)) = opRow (decode (.cmd (codeWord (cmdField v)))) := opRow_decodeCmd_codeWord v
    rw [hrow]
    exact ⟨hmem, fun r hr => by rw [covers_codeWord hr v]; exact hrows r hr⟩
  · exact phase_liesInItsRowOnly p

/-- Settles O4: each word is decoded. -/
theorem writtenOutWordsDecode : Obligations.WrittenOutWordsDecode := by
  unfold Obligations.WrittenOutWordsDecode
  decide

end Sys2Proof.Machine
end

section
/-!
PROOFS. Big-endian serialisation (R10, R72). `bebytes_k` writes a number as digits of base 256, so one more digit divides
the number by 256; the digest is the serialisation of the eight words one after another.
-/
namespace Sys2Proof.Machine

/-! ### The bytes of a number -/

theorem beBytes_getElem {k v j : Nat} (h : j < (beBytes k v).length) : (beBytes k v)[j] = beByte k v j := by
  simp [beBytes]

/-- The last byte is the last digit of base 256, and those before it are the number without that digit. -/
theorem beBytes_succ (k v : Nat) : beBytes (k + 1) v = beBytes k (v / 2 ^ 8) ++ [BitVec.ofNat 8 v] := by
  have hlast : beByte (k + 1) v k = BitVec.ofNat 8 v := by
    apply BitVec.eq_of_toNat_eq
    rw [beByte_toNat, BitVec.toNat_ofNat]
    simp
  have hbefore : (List.range k).map (beByte (k + 1) v) = beBytes k (v / 2 ^ 8) := by
    refine List.map_congr_left fun j hj => BitVec.eq_of_toNat_eq ?_
    have hweight : 8 * (k + 1 - 1 - j) = 8 + 8 * (k - 1 - j) := by have := List.mem_range.mp hj; omega
    rw [beByte_toNat, beByte_toNat, hweight, pow_add, Nat.div_div_eq_div_mul]
  rw [beBytes, List.range_succ, List.map_append, hbefore, List.map_singleton, hlast]

/-- Reading the bytes back as one number gives the number, up to what `k` bytes hold. -/
theorem foldl_beBytes (k v : Nat) :
    (beBytes k v).foldl (fun acc b => acc * 2 ^ 8 + b.toNat) 0 = v % 2 ^ (8 * k) := by
  induction k generalizing v with
  | zero => simp [beBytes, Nat.mod_one]
  | succ k ih =>
    rw [beBytes_succ, List.foldl_append, ih, List.foldl_cons, List.foldl_nil, BitVec.toNat_ofNat,
      show 8 * (k + 1) = 8 + 8 * k by ring, pow_add, Nat.mod_mul]
    ring

theorem be32_beBytes (x : Word) :
    be32 (beByte 4 x.toNat 0) (beByte 4 x.toNat 1) (beByte 4 x.toNat 2) (beByte 4 x.toNat 3) = x := by
  apply BitVec.eq_of_toNat_eq
  simp only [be32_toNat, beByte_toNat]
  omega

/-- Settles O35: packing never wraps, and the bytes of a word are its digits of base 256. -/
theorem bigEndianPackingRoundTrips : Obligations.BigEndianPackingRoundTrips := by
  refine ⟨fun x => ⟨_, _, _, _, rfl, be32_beBytes x⟩, be32_toNat, beBytes_length, fun k v j hj => ?_⟩
  rw [beBytes_getElem hj, beByte_toNat]

/-! ### The digest -/

theorem vector_toList_eq_ofFn {α : Type} {n : Nat} (v : Vector α n) : v.toList = List.ofFn fun i : Fin n => v[i.val] := by
  rw [← Vector.toList_ofFn]
  congr 1
  ext i hi
  rw [Vector.getElem_ofFn]

theorem beBytes_eq_ofFn (k v : Nat) : beBytes k v = List.ofFn fun j : Fin k => beByte k v j.val := by
  rw [beBytes]
  apply List.ext_getElem <;> simp

/-- The 32 bytes are eight runs of four. -/
theorem toList_assembleDigest (hs : Vector Word 8) :
    (assembleDigest hs).toList = hs.toList.flatMap (fun x => beBytes 4 x.toNat) := by
  have hrun (i : Fin 8) :
      (List.ofFn fun j : Fin 4 => (assembleDigest hs)[4 * i.val + j.val]) = beBytes 4 hs[i.val].toNat := by
    simp only [beBytes_eq_ofFn, assembleDigest_getElem hs i.isLt (Fin.isLt _)]
  calc (assembleDigest hs).toList
      = List.ofFn fun k : Fin (4 * 8) => (assembleDigest hs)[k.val] := vector_toList_eq_ofFn _
    _ = (List.ofFn fun i : Fin 8 => List.ofFn fun j : Fin 4 => (assembleDigest hs)[4 * i.val + j.val]).flatten :=
        List.ofFn_mul' _
    _ = (List.ofFn fun i : Fin 8 => beBytes 4 hs[i.val].toNat).flatten := by simp only [hrun]
    _ = hs.toList.flatMap (fun x => beBytes 4 x.toNat) := by
        rw [vector_toList_eq_ofFn, List.flatMap_def, ← List.ofFn_comp']

/-- A word of the hash state is packed from its four bytes of the digest. -/
theorem getElem_eq_be32_assembleDigest (hs : Vector Word 8) {i : Nat} (hi : i < 8) :
    hs[i] = be32 (assembleDigest hs)[4 * i + 0] (assembleDigest hs)[4 * i + 1] (assembleDigest hs)[4 * i + 2]
      (assembleDigest hs)[4 * i + 3] := by
  rw [assembleDigest_getElem hs hi (by decide), assembleDigest_getElem hs hi (by decide),
    assembleDigest_getElem hs hi (by decide), assembleDigest_getElem hs hi (by decide), be32_beBytes]

theorem assembleDigest_injective {hs hs' : Vector Word 8} (h : assembleDigest hs = assembleDigest hs') : hs = hs' := by
  ext i hi
  rw [getElem_eq_be32_assembleDigest hs hi, getElem_eq_be32_assembleDigest hs' hi, h]

/-- The word DIGEST`i` shows byte `4*i + j` as its byte `j`, most significant first (R40). -/
theorem digestWord_byte (d : Vector Byte 32) {i j : Nat} (hi : i < 8) (hj : j < 4) :
    (digestWord d ⟨i, hi⟩).toNat / 2 ^ (24 - 8 * j) % 2 ^ 8 = d[4 * i + j].toNat := by
  rw [digestWord, be32_toNat]
  interval_cases j <;> simp <;> omega

/-- Settles O48: word by word, the digest is `bebytes_4`, from which `be32` gives the word back. -/
theorem digestSerialisesTheStateInjectively : Obligations.DigestSerialisesTheStateInjectively := by
  refine ⟨toList_assembleDigest, fun hs i j hi hj => assembleDigest_getElem_toNat hs hi hj,
    fun hs hs' => assembleDigest_injective, fun d j => ?_⟩
  rw [digestWord_byte d (by omega) (by omega)]
  simp only [Nat.div_add_mod]
  rfl

end Sys2Proof.Machine
end

section
/-!
PROOFS. Padding and parsing (R54 to R60). The padded message is four runs, and each lemma reads one of them: the message,
the marker, the zeros and the length field, the same four as `PadByte`'s. The blocks are the padded message cut at every
multiple of 64.
-/
namespace Sys2Proof.Machine

/-! ### Lengths -/

theorem padLen_eq_int (n : Nat) : (padLen n : Int) = n + 1 + (55 - (n : Int)) % 64 + 8 := by
  have hzeros : (padZeros n : Int) = (55 - (n : Int)) % 64 := Int.toNat_of_nonneg (by omega)
  rw [padLen]
  omega

/-- Settles O40: both forms of the padded length round up to the next multiple of 64. -/
theorem paddedLengthAndBlockCount : Obligations.PaddedLengthAndBlockCount := by
  intro n
  have hcount := nBlocks_eq n
  exact ⟨padLen_eq_int n, padLen_eq n, rfl, hcount, by omega, by omega⟩

/-! ### The bytes of the padded message -/

section
variable (m : List Byte) {i : Nat}

/-- The message, the marker and the zeros end 8 bytes before the padded message does. -/
theorem padZeros_eq : m.length + 1 + padZeros m.length = padLen m.length - 8 := by unfold padLen; omega

theorem pad_getElem?_message (hi : i < m.length) : (pad m)[i]? = m[i]? := by
  rw [pad, List.append_assoc, List.append_assoc, List.getElem?_append_left hi]

theorem pad_getElem?_marker : (pad m)[m.length]? = some 0x80#8 := by
  rw [pad, List.append_assoc, List.append_assoc, List.getElem?_append_right le_rfl, Nat.sub_self]
  rfl

theorem pad_getElem?_zeros (hafter : m.length < i) (hi : i < padLen m.length - 8) : (pad m)[i]? = some 0x00#8 := by
  have hend := padZeros_eq m
  rw [pad, List.getElem?_append_left (by simp; omega), List.getElem?_append_right (by simp; omega),
    List.getElem?_replicate_of_lt (by simp; omega)]

theorem pad_drop_lengthField : (pad m).drop (padLen m.length - 8) = beBytes 8 (8 * m.length) := by
  have hend := padZeros_eq m
  rw [pad, List.drop_left']
  simp; omega

theorem pad_getElem?_lengthField (hfield : padLen m.length - 8 ≤ i) (hi : i < padLen m.length) :
    (pad m)[i]? = some (beByte 8 (8 * m.length) (i - (padLen m.length - 8))) := by
  have hplace : i - (padLen m.length - 8) < (beBytes 8 (8 * m.length)).length := by rw [beBytes_length]; omega
  calc (pad m)[i]?
      = ((pad m).drop (padLen m.length - 8))[i - (padLen m.length - 8)]? := by
        rw [List.getElem?_drop, Nat.add_sub_cancel' hfield]
    _ = some (beByte 8 (8 * m.length) (i - (padLen m.length - 8))) := by
        rw [pad_drop_lengthField, List.getElem?_eq_getElem hplace, beBytes_getElem]

end

theorem padByte_eq_pad_getElem? (m : Memory) {cap n i : Nat} (hlen : lengthOk cap n) (hi : i < padLen n) :
    padByte m cap n i = (pad (message m n))[i]? := by
  have hmessage : (message m n).length = n := message_length m n
  obtain hin | rfl | hafter := Nat.lt_trichotomy i n
  · have hbyte : i < (message m n).length := by rwa [hmessage]
    rw [padByte_message hlen hin, pad_getElem?_message _ hbyte, List.getElem?_eq_getElem hbyte, message_getElem]
  · have hmarker := pad_getElem?_marker (message m i)
    rw [hmessage] at hmarker
    rw [padByte_marker hlen, hmarker]
  · by_cases hzero : i < padLen n - 8
    · have hbyte := pad_getElem?_zeros (message m n) (i := i)
      rw [hmessage] at hbyte
      rw [padByte_zeros hlen hafter hzero, hbyte hafter hzero]
    · have hfield : padLen n - 8 ≤ i := Nat.le_of_not_lt hzero
      have hbyte := pad_getElem?_lengthField (message m n) (i := i)
      rw [hmessage] at hbyte
      rw [padByte_lengthField hlen hfield hi, hbyte hfield hi]

/-- Settles O41: the four ranges of `PadByte` are the four runs of the padded message. -/
theorem padByteIsTheByteOfThePaddedMessage : Obligations.PadByteIsTheByteOfThePaddedMessage :=
  fun m _ _ _ hfits hbuffer hi => padByte_eq_pad_getElem? m ⟨hfits, hbuffer⟩ hi

/-- The length field holds the bit length, which fits in 64 bits (R58). -/
theorem pad_lengthField {m : List Byte} (h : m.length < 2 ^ 61) :
    ((pad m).drop ((pad m).length - 8)).foldl (fun acc b => acc * 2 ^ 8 + b.toNat) 0 = 8 * m.length := by
  rw [pad_length, pad_drop_lengthField, foldl_beBytes, Nat.mod_eq_of_lt (by omega)]

theorem pad_take (m : List Byte) : (pad m).take m.length = m := by
  rw [pad, List.append_assoc, List.append_assoc, List.take_left]

/-- Settles O43: each property is about one of the four runs, or about the padded length. -/
theorem paddedMessageProperties : Obligations.PaddedMessageProperties := by
  intro m hfits
  have hlength := pad_length m
  have hround := padLen_eq m.length
  refine ⟨by omega, pad_take m, pad_getElem?_marker m, fun i hafter hi => ?_, pad_lengthField hfits, by omega, by omega⟩
  exact pad_getElem?_zeros m hafter (by rwa [hlength] at hi)

/-! ### The blocks -/

theorem parse_length (p : List Byte) : (parse p).length = p.length / 64 := by simp [parse]

theorem parse_getElem? (p : List Byte) {b : Nat} (hb : b < p.length / 64) : (parse p)[b]? = some (block p b) := by
  simp [parse, hb]

theorem block_length {p : List Byte} {b : Nat} (hb : b < p.length / 64) : (block p b).length = 64 := by
  rw [block, List.length_take, List.length_drop]
  omega

theorem block_getElem? (p : List Byte) (b : Nat) {k : Nat} (hk : k < 64) : (block p b)[k]? = p[64 * b + k]? := by
  rw [block, List.getElem?_take_of_lt hk, List.getElem?_drop]

/-- The first `n` blocks are the first `64 * n` bytes. -/
theorem flatten_blocks (p : List Byte) (n : Nat) : ((List.range n).map (block p)).flatten = p.take (64 * n) := by
  induction n with
  | zero => simp
  | succ n ih =>
    rw [List.range_succ, List.map_append, List.flatten_append, ih, Nat.mul_succ, List.take_add]
    simp [block]

theorem parse_flatten {p : List Byte} (h : p.length % 64 = 0) : (parse p).flatten = p := by
  rw [parse, flatten_blocks, List.take_of_length_le (by omega)]

/-- Byte `k` of block `b` of the padded message, by `PadByte` (R59). -/
theorem block_pad_getElem? (m : Memory) {cap n b k : Nat} (hlen : lengthOk cap n) (hb : b < nBlocks n) (hk : k < 64) :
    (block (pad (message m n)) b)[k]? = padByte m cap n (64 * b + k) := by
  have hbyte : 64 * b + k < padLen n := by rw [padLen_eq_nBlocks]; omega
  rw [block_getElem? _ _ hk, padByte_eq_pad_getElem? m hlen hbyte]

/-- Settles O44: the blocks are the padded message cut at the multiples of 64. -/
theorem blocksPartitionThePaddedMessage : Obligations.BlocksPartitionThePaddedMessage := by
  refine ⟨fun p hmod => ⟨parse_flatten hmod, parse_length p, fun b hb => ?length, fun b k hb hk => ?bytes⟩,
    fun m cap n b k hfits hbuffer hb hk => block_pad_getElem? m ⟨hfits, hbuffer⟩ hb hk⟩
  case length =>
    obtain ⟨k, hk, rfl⟩ := List.mem_map.mp hb
    exact block_length (List.mem_range.mp hk)
  case bytes => exact ⟨parse_getElem? p hb, block_getElem? p b hk⟩

end Sys2Proof.Machine
end

section
/-!
PROOFS. The ROMs (R21, R22). Trial division up to 17 decides primality below 18^2 = 324, hence that the 64 numbers listed
are consecutive primes; the integer root of a scaled prime is then the ROM's word with the root's whole part before it.
-/
namespace Sys2Proof.Machine

/-! ### The first 64 primes -/

def firstPrimes : Vector Nat 64 := #v[
  2, 3, 5, 7, 11, 13, 17, 19, 23, 29, 31, 37, 41, 43, 47, 53,
  59, 61, 67, 71, 73, 79, 83, 89, 97, 101, 103, 107, 109, 113, 127, 131,
  137, 139, 149, 151, 157, 163, 167, 173, 179, 181, 191, 193, 197, 199, 211, 223,
  227, 229, 233, 239, 241, 251, 257, 263, 269, 271, 277, 281, 283, 293, 307, 311]

/-- No number from 2 to 17 other than `n` divides `n`. -/
def PassesTrialDivision (n : Nat) : Prop := 2 ≤ n ∧ ∀ d, d < 18 → 2 ≤ d → d < n → n % d ≠ 0

theorem prime_iff_passesTrialDivision {n : Nat} (h : n < 18 ^ 2) : n.Prime ↔ PassesTrialDivision n := by
  rw [Nat.prime_def_le_sqrt]
  refine and_congr_right fun htwo => ⟨fun hdiv d _ hd hdn hmod => ?_, fun htrial d hd hsqrt hdvd => ?_⟩
  · have hprime : n.Prime := Nat.prime_def_le_sqrt.mpr ⟨htwo, hdiv⟩
    obtain rfl | rfl := (Nat.dvd_prime hprime).mp (Nat.dvd_of_mod_eq_zero hmod) <;> omega
  · have hsquare : d * d ≤ n := Nat.le_sqrt.mp hsqrt
    have hsmall : d < 18 := by nlinarith
    have hproper : d < n := by nlinarith
    exact htrial d hsmall hd hproper (Nat.mod_eq_zero_of_dvd hdvd)

/-- The next prime in order, where no prime lies between. -/
theorem nth_prime_succ {k q : Nat} (hq : q.Prime) (hlt : Nat.nth Nat.Prime k < q)
    (hgap : ∀ m, Nat.nth Nat.Prime k < m → m < q → ¬m.Prime) : Nat.nth Nat.Prime (k + 1) = q := by
  have hnext : Nat.nth Nat.Prime k < Nat.nth Nat.Prime (k + 1) :=
    (Nat.nth_lt_nth Nat.infinite_setOfPred_prime).mpr k.lt_succ_self
  obtain hbelow | heq | habove := Nat.lt_trichotomy (Nat.nth Nat.Prime (k + 1)) q
  · exact absurd (Nat.prime_nth_prime (k + 1)) (hgap _ hnext hbelow)
  · exact heq
  · exact absurd (Nat.le_nth_of_lt_nth_succ habove hq) hlt.not_ge

theorem firstPrimes_lt (t : Fin 64) : firstPrimes[t] < 18 ^ 2 := by revert t; decide

theorem firstPrimes_passTrialDivision (t : Fin 64) : PassesTrialDivision firstPrimes[t] := by
  unfold PassesTrialDivision; revert t; decide

theorem firstPrimes_increasing (t : Fin 63) : firstPrimes[t.val] < firstPrimes[t.val + 1] := by revert t; decide

/-- Every number between two listed primes that follow each other fails trial division. -/
theorem firstPrimes_gap (t : Fin 63) :
    ∀ d, d < firstPrimes[t.val + 1] - firstPrimes[t.val] - 1 → ¬PassesTrialDivision (firstPrimes[t.val] + 1 + d) := by
  unfold PassesTrialDivision; revert t; decide

theorem nth_prime_eq {t : Nat} (ht : t < 64) : Nat.nth Nat.Prime t = firstPrimes[t] := by
  induction t with
  | zero => exact Nat.nth_prime_zero_eq_two
  | succ t ih =>
    have ih := ih (by omega)
    have hbound := firstPrimes_lt ⟨t + 1, ht⟩
    refine nth_prime_succ ((prime_iff_passesTrialDivision hbound).mpr (firstPrimes_passTrialDivision ⟨t + 1, ht⟩))
      (ih ▸ firstPrimes_increasing ⟨t, by omega⟩) fun m hlow hhigh hprime => ?_
    rw [ih] at hlow
    obtain ⟨d, rfl⟩ := Nat.exists_eq_add_of_le (Nat.succ_le_of_lt hlow)
    have hbelow : firstPrimes[t].succ + d < 18 ^ 2 := hhigh.trans hbound
    exact firstPrimes_gap ⟨t, by omega⟩ d (show d < firstPrimes[t + 1] - firstPrimes[t] - 1 by omega)
      ((prime_iff_passesTrialDivision hbelow).mp hprime)

/-! ### The roots -/

/-- The integer root of the scaled prime is a whole part of at most 6 and the 32 bits of the constant. -/
theorem romK_isRoot (t : Fin 64) : ∃ c : Fin 7,
    (c.val * 2 ^ 32 + romK[t].toNat) ^ 3 ≤ firstPrimes[t] * 2 ^ 96 ∧
      firstPrimes[t] * 2 ^ 96 < (c.val * 2 ^ 32 + romK[t].toNat + 1) ^ 3 := by revert t; decide

/-- The square roots of the first 8 primes are below 5. -/
theorem romIV_isRoot (i : Fin 8) : ∃ c : Fin 5,
    (c.val * 2 ^ 32 + romIV[i].toNat) ^ 2 ≤ firstPrimes[i.val] * 2 ^ 64 ∧
      firstPrimes[i.val] * 2 ^ 64 < (c.val * 2 ^ 32 + romIV[i].toNat + 1) ^ 2 := by revert i; decide

theorem toNat_eq_whole_add_mod (c : Nat) (x : Word) : x.toNat = (c * 2 ^ 32 + x.toNat) % 2 ^ 32 := by omega

/-- Settles O39: the primes are those listed, and each word is the fraction of its prime's root. -/
theorem romsAreTheRootFractionsOfThePrimes : Obligations.RomsAreTheRootFractionsOfThePrimes := by
  refine ⟨fun t ht => ?_, fun i hi => ?_⟩
  · obtain ⟨c, hlow, hhigh⟩ := romK_isRoot ⟨t, ht⟩
    rw [nth_prime_eq ht]
    exact ⟨_, hlow, hhigh, toNat_eq_whole_add_mod c romK[t]⟩
  · obtain ⟨c, hlow, hhigh⟩ := romIV_isRoot ⟨i, hi⟩
    rw [nth_prime_eq (by omega)]
    exact ⟨_, hlow, hhigh, toNat_eq_whole_add_mod c romIV[i]⟩

end Sys2Proof.Machine
end

section
/-!
PROOFS. What the operations do and leave (R74 to R84). The commands and CHECK act by cases, each an accepted START, error
entry or the start of a hash; every other operation answers one state, whose fields are read off its definition.
-/
namespace Sys2Proof.Machine

/-! ### IDLE, and the answer of every operation -/

/-- Settles O9: the operation of IDLE answers its own state, and the phase IDLE selects it. -/
theorem idlePhaseChangesNothing : Obligations.IdlePhaseChangesNothing := by
  refine fun s => ⟨rfl, fun hidle => ?_⟩
  rw [fetch_phase, hidle]
  rfl

/-- No operation is refused or faults. -/
theorem exec_answers (i : Instr) (s : State) : ∃ t, exec i s = .next t := by
  cases i with
  | check =>
    obtain ⟨-, haccept⟩ | ⟨-, hover | hbig⟩ := execCheck_cases s
    · exact ⟨_, haccept⟩
    · exact ⟨_, hover⟩
    · exact ⟨_, hbig⟩
  | _ => exact ⟨_, rfl⟩

/-- Settles O18: the fields named are set without the free value. -/
theorem everyOperationAnswersANextState : Obligations.EveryOperationAnswersANextState := by
  refine ⟨exec_answers, fun s t h => ?load, fun s t h => ?round, fun s t h => ?feed⟩
  case load => cases h; exact ⟨rfl, rfl, rfl⟩
  case round => cases h; exact ⟨rfl, rfl, rfl, rfl, rfl, rfl⟩
  case feed => cases h; rfl

/-! ### The datapath and position each operation may write -/

/-- Two states hold the same datapath, schedule position and digest output. -/
structure SameDatapath (s t : State) : Prop where
  hs : t.hs = s.hs
  work : t.work = s.work
  w : t.w = s.w
  index : t.t = s.t
  blk : t.blk = s.blk
  nblk : t.nblk = s.nblk
  dout : t.dout = s.dout

theorem sameDatapath_refl (s : State) : SameDatapath s s := ⟨rfl, rfl, rfl, rfl, rfl, rfl, rfl⟩

theorem sameDatapath_raiseError (c : ErrCode) (s : State) : SameDatapath s (raiseError c s) :=
  ⟨rfl, rfl, rfl, rfl, rfl, rfl, rfl⟩

theorem sameDatapath_start {ign : BitVec 28} {s t : State} (h : exec (.start ign) s = .next t) : SameDatapath s t := by
  by_cases hidle : s.phase = .idle
  · cases (exec_start_idle hidle ign).symm.trans h; exact ⟨rfl, rfl, rfl, rfl, rfl, rfl, rfl⟩
  · cases (exec_start_busy hidle ign).symm.trans h; exact sameDatapath_refl s

theorem sameDatapath_reservedCommand (s : State) : SameDatapath s (reservedCommand s) := by
  by_cases hidle : s.phase = .idle
  · rw [reservedCommand_idle hidle]; exact sameDatapath_raiseError .badCmd s
  · rw [reservedCommand_busy hidle]; exact sameDatapath_refl s

/-- CHECK keeps the datapath, or writes `HS`, `BLK` and `NBLK` of it. -/
theorem execCheck_frame {s t : State} (h : exec .check s = .next t) :
    t.work = s.work ∧ t.w = s.w ∧ t.t = s.t ∧ t.dout = s.dout := by
  obtain ⟨-, haccept⟩ | ⟨-, hover | hbig⟩ := execCheck_cases s
  · cases haccept.symm.trans h; exact ⟨rfl, rfl, rfl, rfl⟩
  · cases hover.symm.trans h; exact ⟨rfl, rfl, rfl, rfl⟩
  · cases hbig.symm.trans h; exact ⟨rfl, rfl, rfl, rfl⟩

/-- The operations other than the seven that work on a hash. -/
def KeepsDatapath : Instr → Prop
  | .nop _ | .start _ | .reservedCmd2_3 _ _ | .reservedCmd4_7 _ _ | .reservedCmd8_15 _ _ | .idle | .reservedPhase7 =>
    True
  | .check | .load | .expand | .round | .feed | .assemble => False

theorem exec_sameDatapath {i : Instr} {s t : State} (h : exec i s = .next t) (hi : KeepsDatapath i) :
    SameDatapath s t := by
  cases i with
  | start => exact sameDatapath_start h
  | reservedCmd2_3 | reservedCmd4_7 | reservedCmd8_15 => cases h; exact sameDatapath_reservedCommand s
  | reservedPhase7 => cases h; exact sameDatapath_raiseError .internal s
  | nop | idle => cases h; exact sameDatapath_refl s
  | check | load | expand | round | feed | assemble => exact hi.elim

/-- The registers outside the host side, and the operations that may change each. -/
theorem exec_writtenBy {i : Instr} {s t : State} (h : exec i s = .next t) :
    (t.hs ≠ s.hs → i = .check ∨ i = .feed) ∧ (t.work ≠ s.work → i = .load ∨ i = .round) ∧
    (t.w ≠ s.w → i = .load ∨ i = .expand) ∧ (t.t ≠ s.t → i = .load ∨ i = .expand ∨ i = .round) ∧
    (t.blk ≠ s.blk → i = .check ∨ i = .feed) ∧ (t.nblk ≠ s.nblk → i = .check) ∧ (t.dout ≠ s.dout → i = .assemble) := by
  cases i with
  | check =>
    obtain ⟨hwork, hw, hindex, hdout⟩ := execCheck_frame h
    simp [hwork, hw, hindex, hdout]
  | load | expand | round | feed | assemble => cases h; simp
  | nop | start | reservedCmd2_3 | reservedCmd4_7 | reservedCmd8_15 | idle | reservedPhase7 =>
    obtain ⟨hhs, hwork, hw, hindex, hblk, hnblk, hdout⟩ := exec_sameDatapath h trivial
    simp [hhs, hwork, hw, hindex, hblk, hnblk, hdout]

/-- LOAD, EXPAND, ROUND and FEED leave the flags alone. -/
theorem exec_blockStep_flags {i : Instr} {s t : State} (h : exec i s = .next t)
    (hi : i = .load ∨ i = .expand ∨ i = .round ∨ i = .feed) :
    t.done = s.done ∧ t.err = s.err ∧ t.errcode = s.errcode := by
  obtain rfl | rfl | rfl | rfl := hi
  all_goals
    cases h
    exact ⟨rfl, rfl, rfl⟩

/-- Settles O19: the datapath by operation, the flags of the block's operations, and the host side by `exec_hostSide`. -/
theorem operationsWriteOnlyTheirRegisters : Obligations.OperationsWriteOnlyTheirRegisters := by
  intro i s t h
  obtain ⟨hhs, hwork, hw, hindex, hblk, hnblk, hdout⟩ := exec_writtenBy h
  obtain ⟨hmsg, hlen, hparams, hprogram, hturns, hreads⟩ := exec_hostSide h
  exact ⟨hhs, hwork, hw, hindex, hblk, hnblk, hdout, exec_blockStep_flags h, hlen, hparams, hprogram, hturns, hreads,
    fun a => by rw [hmsg]⟩

/-! ### DONE -/

theorem exec_start_done {ign : BitVec 28} {s t : State} (h : exec (.start ign) s = .next t) : t.done → s.done := by
  by_cases hidle : s.phase = .idle
  · cases (exec_start_idle hidle ign).symm.trans h; simp
  · cases (exec_start_busy hidle ign).symm.trans h; exact id

theorem reservedCommand_done {s : State} : (reservedCommand s).done → s.done := by
  by_cases hidle : s.phase = .idle
  · rw [reservedCommand_idle hidle]; simp
  · rw [reservedCommand_busy hidle]; exact id

theorem exec_check_done {s t : State} (h : exec .check s = .next t) : t.done → s.done := by
  obtain ⟨-, haccept⟩ | ⟨-, hover | hbig⟩ := execCheck_cases s
  · cases haccept.symm.trans h; exact id
  · cases hover.symm.trans h; simp
  · cases hbig.symm.trans h; simp

theorem exec_setsDone {i : Instr} {s t : State} (h : exec i s = .next t) (ht : t.done = true) (hs : s.done = false) :
    i = .assemble := by
  have hkept : i ≠ .assemble → t.done → s.done := by
    intro hi
    cases i with
    | start => exact exec_start_done h
    | check => exact exec_check_done h
    | reservedCmd2_3 | reservedCmd4_7 | reservedCmd8_15 => cases h; exact reservedCommand_done
    | reservedPhase7 => cases h; simp
    | nop | idle | load | expand | round | feed => cases h; exact id
    | assemble => exact absurd rfl hi
  by_contra hi
  simp [hs, ht] at hkept
  exact hi hkept

/-- Settles O22: every other operation keeps `DOUT` and leaves `DONE` clear where it was. -/
theorem onlyAssembleSetsDone : Obligations.OnlyAssembleSetsDone := by
  intro i s t h hchange
  have hi : i = .assemble := by
    obtain ⟨-, -, -, -, -, -, hdout⟩ := exec_writtenBy h
    obtain ⟨ht, hs⟩ | hwritten := hchange
    · exact exec_setsDone h ht hs
    · exact hdout hwritten
  subst hi
  cases h
  exact ⟨rfl, rfl, rfl⟩

/-! ### The sources of errors -/

/-- The operations that can enter an error. -/
def MayRaise (i : Instr) : Prop :=
  i = .check ∨ i = .reservedPhase7 ∨ ∃ ign cmd,
    i = .reservedCmd2_3 ign cmd ∨ i = .reservedCmd4_7 ign cmd ∨ i = .reservedCmd8_15 ign cmd

/-- Every other operation keeps the error flags, or clears `ERR`. -/
theorem exec_mayRaise_or_kept {i : Instr} {s t : State} (h : exec i s = .next t) :
    MayRaise i ∨ t.err = false ∨ (t.err = s.err ∧ t.errcode = s.errcode) := by
  cases i with
  | check => exact .inl (.inl rfl)
  | reservedPhase7 => exact .inl (.inr (.inl rfl))
  | reservedCmd2_3 ign cmd => exact .inl (.inr (.inr ⟨ign, cmd, .inl rfl⟩))
  | reservedCmd4_7 ign cmd => exact .inl (.inr (.inr ⟨ign, cmd, .inr (.inl rfl)⟩))
  | reservedCmd8_15 ign cmd => exact .inl (.inr (.inr ⟨ign, cmd, .inr (.inr rfl)⟩))
  | start ign =>
    by_cases hidle : s.phase = .idle
    · cases (exec_start_idle hidle ign).symm.trans h; exact .inr (.inl rfl)
    · cases (exec_start_busy hidle ign).symm.trans h; exact .inr (.inr ⟨rfl, rfl⟩)
  | nop | idle | load | expand | round | feed | assemble => cases h; exact .inr (.inr ⟨rfl, rfl⟩)

theorem mayRaise_of_newError {i : Instr} {s t : State} (h : exec i s = .next t) (herr : t.err = true)
    (hnew : s.err = false ∨ t.errcode ≠ s.errcode) : MayRaise i := by
  obtain hraise | hclear | ⟨hsame, hcode⟩ := exec_mayRaise_or_kept h
  · exact hraise
  · simp [hclear] at herr
  · simp [← hsame, herr, hcode] at hnew

/-! ### A rejected length -/

/-- The code CHECK gives a rejected length, LEN_OVERFLOW first (R92). -/
def rejectCode (s : State) : ErrCode := if 2 ^ 61 ≤ s.msgLen.toNat then .lenOverflow else .lenTooBig

theorem execCheck_rejected {s : State} (h : ¬lengthOk s.params.msgMaxBytes s.msgLen.toNat) :
    execCheck s = .next (raiseError (rejectCode s) s) := by
  by_cases hover : 2 ^ 61 ≤ s.msgLen.toNat
  · rw [execCheck_overflow hover, rejectCode, if_pos hover]
  · have hbig : s.params.msgMaxBytes < s.msgLen.toNat := by unfold lengthOk at h; omega
    rw [execCheck_tooBig (by omega) hbig, rejectCode, if_neg hover]

/-- Settles O24: neither START nor the error touches the length, so CHECK gives the same code, and the second error state
is the first. -/
theorem rejectedLengthFailsAgain : Obligations.RejectedLengthFailsAgain := by
  intro ign s hidle hreject
  have hfail : exec .check (acceptStart s) = .next (raiseError (rejectCode s) (acceptStart s)) :=
    execCheck_rejected (s := acceptStart s) hreject
  exact ⟨acceptStart s, _, _, exec_start_idle hidle ign, hfail, rfl, rfl, exec_start_idle rfl ign,
    execCheck_rejected (s := acceptStart (raiseError (rejectCode s) (acceptStart s))) hreject⟩

end Sys2Proof.Machine
end

section
/-!
PROOFS. The host's accesses (R34 to R41). Every register but a digest word before `DONE` has one word that a read replies
with, and that word is a function of the core alone, so that no reply changes it.
-/
namespace Sys2Proof.Machine

open Sys2Proof.Safety

/-! ### Reads of the register space -/

theorem eq_regOffset_of_regAt {o : Nat} {r : Reg} (h : regAt o = some r) : o = regOffset r := by
  unfold regAt at h
  split at h <;> cases h <;> rfl

/-- The word a register shows (R35), where R35 gives it one. -/
def regWord (s : State) : Reg → Word
  | .ctrl => 0
  | .status => statusWord s
  | .msgLenLo => msgLenLo s.msgLen
  | .msgLenHi => msgLenHi s.msgLen
  | .digest i => digestWord s.dout i
  | .reserved _ => 0

/-- The reads that R35 leaves unspecified: a digest word while `DONE = 0`. -/
def UnspecifiedRead (s : State) (r : Reg) : Prop := (∃ i, r = .digest i) ∧ s.done = false

theorem readReg_specified {s : State} {r : Reg} (h : ¬UnspecifiedRead s r) : readReg r s = reply (regWord s r) s := by
  cases r with
  | digest i =>
    have hdone : s.done = true := by simpa [UnspecifiedRead] using h
    exact if_pos hdone
  | ctrl | status | msgLenLo | msgLenHi | reserved => rfl

theorem readReg_unspecified {s : State} {r : Reg} (h : UnspecifiedRead s r) :
    readReg r s = reply (Config.freeWord s.draws 0) { s with draws := s.draws + 1 } := by
  obtain ⟨⟨i, rfl⟩, hdone⟩ := h
  simp [readReg, hdone]

theorem regWord_reply (v : Word) (s : State) (r : Reg) : regWord (reply v s) r = regWord s r := by cases r <;> rfl

theorem access_read_reg (r : Reg) (s : State) : access ⟨.reg, .read, regOffset r, 32⟩ s = .next (readReg r s) :=
  access_read_of_regAt (regAt_regOffset r) s

theorem access_read_digest {s : State} (h : s.done = true) (i : Fin 8) :
    access ⟨.reg, .read, 0x10 + 4 * i.val, 32⟩ s = .next (reply (digestWord s.dout i) s) := by
  have hspecified : ¬UnspecifiedRead s (.digest i) := by simp [UnspecifiedRead, h]
  rw [show 0x10 + 4 * i.val = regOffset (.digest i) from rfl, access_read_reg, readReg_specified hspecified, regWord]

theorem msgLenLo_eq_ofNat (n : U64) : msgLenLo n = BitVec.ofNat 32 (n.toNat % 2 ^ 32) := by
  rw [← msgLenLo_toNat, BitVec.ofNat_toNat, BitVec.setWidth_eq]

theorem msgLenHi_eq_ofNat (n : U64) : msgLenHi n = BitVec.ofNat 32 (n.toNat / 2 ^ 32) := by
  rw [← msgLenHi_toNat, BitVec.ofNat_toNat, BitVec.setWidth_eq]

theorem access_read_reserved {o : Nat} (ho : o ∈ [0x30, 0x34, 0x38, 0x3C]) (s : State) :
    access ⟨.reg, .read, o, 32⟩ s = .next (reply 0 s) := by
  simp only [List.mem_cons, List.not_mem_nil, or_false] at ho
  obtain rfl | rfl | rfl | rfl := ho
  · exact access_read_reg (.reserved 0) s
  · exact access_read_reg (.reserved 1) s
  · exact access_read_reg (.reserved 2) s
  · exact access_read_reg (.reserved 3) s

/-- Settles O26: each offset is a register's, whose word or free value is replied. -/
theorem registerReadsReturnTheirValues : Obligations.RegisterReadsReturnTheirValues := by
  intro s
  refine ⟨access_read_ctrl s, access_read_reg .status s, ?lo, ?hi, fun i hi hdone => ?done, fun i hi hdone => ?free,
    fun o ho => access_read_reserved ho s⟩
  case lo =>
    rw [← msgLenLo_eq_ofNat]
    exact access_read_reg .msgLenLo s
  case hi =>
    rw [← msgLenHi_eq_ofNat]
    exact access_read_reg .msgLenHi s
  case done => exact ⟨_, access_read_digest hdone ⟨i, hi⟩, be32_toNat _ _ _ _⟩
  case free =>
    have hread := access_read_reg (.digest ⟨i, hi⟩) s
    rwa [readReg_unspecified ⟨⟨_, rfl⟩, hdone⟩] at hread

/-! ### The message space -/

section
variable {s : State} {i : Nat}

theorem access_read_msg (hi : i < s.params.msgMaxBytes) :
    access ⟨.msg, .read, i, 8⟩ s = .next (reply ((memRead s.msg i).setWidth 32) s) := by
  simp [access, msgAccess, hi]

theorem access_write_msg (hi : i < s.params.msgMaxBytes) (v : Word) :
    access ⟨.msg, .write v, i, 8⟩ s = .next (writeMsg i (v.setWidth 8) s) := by
  simp [access, msgAccess, hi]

end

theorem access_msg_refused {s : State} {i wd : Nat} (h : ¬(wd = 8 ∧ i < s.params.msgMaxBytes)) (a : Access) :
    access ⟨.msg, a, i, wd⟩ s = .refused .messageAccessUndefined := if_neg h

theorem setWidth_byte_roundTrip (v : Byte) : (v.setWidth 32).setWidth 8 = v := by simp

/-- Settles O29: an access of the message space is `memRead` or `memWrite` at its offset, or it is dropped or refused. -/
theorem messageSpaceAccesses : Obligations.MessageSpaceAccesses := by
  refine ⟨fun s i hi => ⟨?read, fun v hbusy => ?dropped, fun v hidle hwf => ?stored⟩,
    fun s a i wd hundefined => access_msg_refused hundefined a⟩
  case read =>
    rw [access_read_msg hi, BitVec.ofNat_toNat]
    rfl
  case dropped => rw [access_write_msg hi, writeMsg_busy hbusy]
  case stored =>
    refine ⟨memWrite s.msg i v, ?_, memRead_memWrite_same hwf i v, fun a ha => memRead_memWrite_other ha v⟩
    rw [access_write_msg hi, setWidth_byte_roundTrip, writeMsg_idle hidle]

/-! ### Repeated reads -/

/-- Every read that answers replies with a word that no reply changes, or is of an unspecified digest word. -/
theorem access_read_cases {sp : Space} {o wd : Nat} {s t : State} (h : access ⟨sp, .read, o, wd⟩ s = .next t) :
    (∃ v, t = reply v s ∧ access ⟨sp, .read, o, wd⟩ t = .next (reply v t)) ∨
      (sp = .reg ∧ 0x10 ≤ o ∧ o < 0x30 ∧ s.done = false ∧ ∃ v, t = reply v { s with draws := s.draws + 1 }) := by
  cases sp with
  | reg =>
    by_cases hwidth : wd = 32
    · subst hwidth
      cases hreg : regAt o with
      | none => cases (access_refused_of_regAt_none hreg .read 32 s).symm.trans h
      | some r =>
        cases (access_read_of_regAt hreg s).symm.trans h
        by_cases hfree : UnspecifiedRead s r
        · rw [readReg_unspecified hfree]
          obtain ⟨⟨i, rfl⟩, hdone⟩ := hfree
          have hoffset : o = 0x10 + 4 * i.val := eq_regOffset_of_regAt hreg
          exact .inr ⟨rfl, by omega, by omega, hdone, _, rfl⟩
        · rw [readReg_specified hfree]
          refine .inl ⟨_, rfl, ?_⟩
          rw [access_read_of_regAt hreg, readReg_specified (s := reply _ s) hfree, regWord_reply]
    · cases (access_refused_of_width hwidth .read o s).symm.trans h
  | msg =>
    by_cases hdefined : wd = 8 ∧ o < s.params.msgMaxBytes
    · obtain ⟨rfl, ho⟩ := hdefined
      cases (access_read_msg ho).symm.trans h
      exact .inl ⟨_, rfl, access_read_msg ho⟩
    · cases (access_msg_refused hdefined .read).symm.trans h

/-- Settles O30: the second read meets the state the first one's reply left. -/
theorem repeatedReadsReturnTheSameValue : Obligations.RepeatedReadsReturnTheSameValue := by
  intro sp o wd s s1 s2 h1 h2
  obtain ⟨v, rfl, hagain⟩ | ⟨hsp, hlow, hhigh, hdone, v, rfl⟩ := access_read_cases h1
  · cases hagain.symm.trans h2
    exact ⟨rfl, .inr ⟨v, rfl, rfl, rfl⟩⟩
  · exact ⟨rfl, .inl ⟨hsp, hlow, hhigh, hdone⟩⟩

/-! ### Accesses while busy -/

theorem writeReg_busy {s : State} (h : s.phase ≠ .idle) (r : Reg) (v : Word) : writeReg r v s = .next s := by
  obtain ⟨-, hcommand⟩ | hignored | ⟨n, hlength⟩ := writeReg_cases r v s
  · rw [hcommand, execCmd_busy h]
  · exact hignored
  · rw [hlength, writeMsgLen_busy h]

theorem access_write_busy {s : State} (h : s.phase ≠ .idle) {sp : Space} {o wd : Nat} {v : Word}
    (hdefined : Defined s.params ⟨sp, .write v, o, wd⟩) : access ⟨sp, .write v, o, wd⟩ s = .next s := by
  obtain ⟨rfl, rfl, hoffset⟩ | ⟨rfl, rfl, ho⟩ := hdefined
  · obtain ⟨r, hr⟩ := Option.isSome_iff_exists.mp ((regAt_isSome_iff o).mpr hoffset)
    rw [access_write_of_regAt hr, writeReg_busy h]
  · rw [access_write_msg ho, writeMsg_busy h]

theorem access_read_defined {s : State} {sp : Space} {o wd : Nat} (hdefined : Defined s.params ⟨sp, .read, o, wd⟩) :
    ∃ t, access ⟨sp, .read, o, wd⟩ s = .next t := by
  obtain ⟨rfl, rfl, hoffset⟩ | ⟨rfl, rfl, ho⟩ := hdefined
  · obtain ⟨r, hr⟩ := Option.isSome_iff_exists.mp ((regAt_isSome_iff o).mpr hoffset)
    exact ⟨_, access_read_of_regAt hr s⟩
  · exact ⟨_, access_read_msg ho⟩

/-- Settles O31: a read only replies, and every write is dropped. -/
theorem busyCoreIgnoresTheHost : Obligations.BusyCoreIgnoresTheHost := by
  rintro ⟨sp, a, o, wd⟩ s hbusy hdefined
  cases a with
  | read =>
    obtain ⟨t, ht⟩ := access_read_defined hdefined
    refine ⟨t, ht, ?_, fun v hv => by cases hv⟩
    obtain ⟨v, rfl, -⟩ | ⟨-, -, -, -, v, rfl⟩ := access_read_cases ht
    · rfl
    · rfl
  | write v => exact ⟨s, access_write_busy hbusy hdefined, rfl, fun _ _ => rfl⟩

/-! ### The digest once done -/

/-- The one transaction that delivers a command is a 32-bit write to CTRL, at offset 0. -/
theorem eq_ctrl_write {x : Transaction} {v : Word} (haccess : x.access = .write v) (hspace : x.space = .reg)
    (hwidth : x.width = 32) (hctrl : regAt x.offset = some .ctrl) : x = ⟨.reg, .write v, 0x00, 32⟩ := by
  obtain ⟨sp, a, o, wd⟩ := x
  cases hspace; cases haccess; cases hwidth
  cases eq_regOffset_of_regAt hctrl
  rfl

/-- NOP at any time, and every command while busy, is as if not delivered. -/
theorem exec_decodeCmd_ignored {v : Word} {s : State} (h : v.toNat % 16 = 0x0 ∨ s.phase ≠ .idle) :
    exec (decodeCmd v) s = .next s := by
  obtain hnop | hbusy := h
  · rw [decodeCmd_nop (cmdField_eq_iff_mod.mpr hnop)]; rfl
  · exact execCmd_busy hbusy v

/-- Nothing but a command touches the digest, the phase or the flag DONE. -/
theorem access_keeps_digest {x : Transaction} {s t : State} (h : access x s = .next t)
    (hcommand : ∀ v, x = ⟨.reg, .write v, 0x00, 32⟩ → v.toNat % 16 = 0x0 ∨ s.phase ≠ .idle) :
    t.done = s.done ∧ t.dout = s.dout ∧ t.phase = s.phase := by
  obtain ⟨r, hr⟩ | ⟨v, hv | hv⟩ | ⟨v, haccess, hspace, hwidth, hctrl, hexec⟩ | hnone | ⟨n, hn⟩ | ⟨v, -, hv⟩ :=
    access_cases x s
  · cases hr.symm.trans h
  · cases hv.symm.trans h; exact ⟨rfl, rfl, rfl⟩
  · cases hv.symm.trans h; exact ⟨rfl, rfl, rfl⟩
  · have hignored := hcommand v (eq_ctrl_write haccess hspace hwidth hctrl)
    rw [hexec, exec_decodeCmd_ignored hignored] at h
    cases h
    exact ⟨rfl, rfl, rfl⟩
  · cases hnone.symm.trans h; exact ⟨rfl, rfl, rfl⟩
  · cases hn.symm.trans h; simp
  · cases hv.symm.trans h; simp

/-- Settles O32: the access keeps `DONE` and `DOUT`, which decide what a digest read returns. -/
theorem digestIsStableWhileDone : Obligations.DigestIsStableWhileDone := by
  intro x s t hdone h hcommand
  obtain ⟨hkept, hdout, hphase⟩ := access_keeps_digest h hcommand
  have htdone : t.done = true := hkept.trans hdone
  exact ⟨htdone, hdout, hphase, fun i => hdout ▸ access_read_digest htdone i⟩

/-! ### Locations and buffers -/

/-- Settles O33: the address less its window's base is the offset, and the other window does not hold the address. -/
theorem busAddressesIdentifyTheLocation : Obligations.BusAddressesIdentifyTheLocation := by
  rintro p ⟨sp, a, o, wd⟩ hdefined hdisjoint
  cases sp with
  | reg =>
    have ho : o < 64 := by simp [Defined] at hdefined; omega
    have hin : p.regBase ≤ p.regBase + o ∧ p.regBase + o < p.regBase + 64 := by omega
    have haddress : busAddress p ⟨.reg, a, o, wd⟩ = p.regBase + o := rfl
    rw [haddress, locate, spaceSize, if_pos hin, Nat.add_sub_cancel_left]
  | msg =>
    have ho : o < p.msgMaxBytes := by simp [Defined] at hdefined; omega
    have hout : ¬(p.regBase ≤ p.msgBase + o ∧ p.msgBase + o < p.regBase + 64) := by omega
    have hin : p.msgBase ≤ p.msgBase + o ∧ p.msgBase + o < p.msgBase + p.msgMaxBytes := by omega
    have haddress : busAddress p ⟨.msg, a, o, wd⟩ = p.msgBase + o := rfl
    rw [haddress, locate, spaceSize, spaceSize, if_neg hout, if_pos hin, Nat.add_sub_cancel_left]

section
variable {a : Nat} {x : Byte} {m : Memory}

theorem wf_tail (h : Memory.wf ((a, x) :: m)) : Memory.wf m :=
  ⟨(List.pairwise_cons.mp h.1).2, fun c hc => h.2 c (List.mem_cons_of_mem _ hc)⟩

theorem memRead_head : memRead ((a, x) :: m) a = x := if_pos rfl

theorem head_ne_unlisted (h : Memory.wf ((a, x) :: m)) : x ≠ unlistedByte := h.2 (a, x) List.mem_cons_self

/-- A canonical buffer lists nothing before its first offset. -/
theorem memRead_before_head (h : Memory.wf ((a, x) :: m)) {i : Nat} (hi : i < a) :
    memRead ((a, x) :: m) i = unlistedByte := by
  refine memRead_of_lt fun c hc => ?_
  obtain rfl | hc := List.mem_cons.mp hc
  · exact hi
  · exact hi.trans ((List.pairwise_cons.mp h.1).1 c hc)

/-- The rest of a canonical buffer lists nothing at or before its first offset. -/
theorem memRead_tail_head (h : Memory.wf ((a, x) :: m)) : memRead m a = unlistedByte :=
  memRead_of_lt fun c hc => (List.pairwise_cons.mp h.1).1 c hc

end

/-- Of two canonical buffers that read alike, neither lists an offset before the other's first. -/
theorem head_le_head {a b : Nat} {x y : Byte} {m m' : Memory} (h : Memory.wf ((a, x) :: m))
    (h' : Memory.wf ((b, y) :: m')) (hread : memRead ((a, x) :: m) a = memRead ((b, y) :: m') a) : b ≤ a := by
  by_contra hlt
  rw [memRead_head, memRead_before_head h' (Nat.lt_of_not_le hlt)] at hread
  exact head_ne_unlisted h hread

theorem ne_nil_of_reads {a : Nat} {x : Byte} {m : Memory} (h : Memory.wf ((a, x) :: m))
    (hread : ∀ i, memRead ((a, x) :: m) i = memRead [] i) : False :=
  head_ne_unlisted h (memRead_head.symm.trans (hread a))

theorem eq_of_memRead_eq {m m' : Memory} (h : Memory.wf m) (h' : Memory.wf m')
    (hread : ∀ i, memRead m i = memRead m' i) : m = m' := by
  induction m generalizing m' with
  | nil =>
    cases m' with
    | nil => rfl
    | cons c m' => exact (ne_nil_of_reads h' fun i => (hread i).symm).elim
  | cons c m ih =>
    cases m' with
    | nil => exact (ne_nil_of_reads h hread).elim
    | cons c' m' =>
      obtain ⟨a, x⟩ := c
      obtain ⟨b, y⟩ := c'
      have hoffset : a = b := le_antisymm (head_le_head h' h (hread b).symm) (head_le_head h h' (hread a))
      subst hoffset
      have hbyte : x = y := by simpa only [memRead_head] using hread a
      subst hbyte
      have htail : m = m' := ih (wf_tail h) (wf_tail h') fun i => by
        by_cases hi : a = i
        · subst hi; rw [memRead_tail_head h, memRead_tail_head h']
        · simpa only [memRead_cons, if_neg hi] using hread i
      rw [htail]

/-- Settles O34: the first entries agree, and then so do the rests. -/
theorem canonicalBuffersWithEqualReadsAreEqual : Obligations.CanonicalBuffersWithEqualReadsAreEqual :=
  fun _ _ hwf hwf' hread => eq_of_memRead_eq hwf hwf' hread

end Sys2Proof.Machine
end

section
/-!
PROOFS. One step, by the agent that makes it (R41, R42, R97). A host turn uses up the turn and perhaps an operation, which
is no state of the core, and then makes one of the six changes of `HostChange`; a core turn runs the operation of the
phase; a reset is the reset event.
-/
namespace Sys2Proof.Machine

open Sys2Proof.Safety

/-! ### The host side of the state -/

/-- The second state is the first but for the model's own fields: the draws, the host agent and the interleaving. -/
def SameCore (s t : State) : Prop :=
  t = { s with draws := t.draws, program := t.program, turns := t.turns, reads := t.reads }

theorem sameCore_refl (s : State) : SameCore s s := rfl

theorem sameCore_takeTurn (s : State) : SameCore s (takeTurn s) := rfl

theorem sameCore_takeTurn_program (s : State) (rest : List HostOp) :
    SameCore s { takeTurn s with program := rest } := rfl

section
variable {s t : State} (h : SameCore s t)
include h

theorem SameCore.phase : t.phase = s.phase := by rw [h]
theorem SameCore.msg : t.msg = s.msg := by rw [h]
theorem SameCore.msgLen : t.msgLen = s.msgLen := by rw [h]
theorem SameCore.params : t.params = s.params := by rw [h]

theorem SameCore.bufferOk (hs : BufferOk s) : BufferOk t := by
  rw [h]; exact ⟨hs.canonical, hs.within⟩

theorem SameCore.stepsLeft : stepsLeft t = stepsLeft s := by
  rw [h]; rfl

end

/-! ### A host access -/

/-- Everything a host access can change. Only an idle core takes a length, a byte or a command. -/
inductive HostChange (s : State) : State → Prop
  | none {t : State} (h : SameCore s t) : HostChange s t
  | length (hidle : s.phase = .idle) (n : U64) : HostChange s { s with msgLen := n }
  | byte (hidle : s.phase = .idle) {i : Nat} (hi : i < s.params.msgMaxBytes) (v : Byte) :
    HostChange s { s with msg := memWrite s.msg i v }
  | started (hidle : s.phase = .idle) : HostChange s (acceptStart s)
  | badCmd (hidle : s.phase = .idle) : HostChange s (raiseError .badCmd s)

theorem hostChange_writeMsgLen (n : U64) (s : State) : HostChange s (writeMsgLen n s) := by
  by_cases hidle : s.phase = .idle
  · rw [writeMsgLen_idle hidle]; exact .length hidle n
  · rw [writeMsgLen_busy hidle]; exact .none (sameCore_refl s)

theorem hostChange_writeMsg {i : Nat} {s : State} (hi : i < s.params.msgMaxBytes) (v : Byte) :
    HostChange s (writeMsg i v s) := by
  by_cases hidle : s.phase = .idle
  · rw [writeMsg_idle hidle]; exact .byte hidle hi v
  · rw [writeMsg_busy hidle]; exact .none (sameCore_refl s)

theorem hostChange_command {v : Word} {s t : State} (h : exec (decodeCmd v) s = .next t) : HostChange s t := by
  obtain rfl | ⟨hidle, rfl | rfl⟩ := execCmd_cases h
  · exact .none (sameCore_refl t)
  · exact .started hidle
  · exact .badCmd hidle

theorem access_hostChange {x : Transaction} {s t : State} (h : access x s = .next t) : HostChange s t := by
  obtain ⟨r, hr⟩ | ⟨v, hv | hv⟩ | ⟨v, -, -, -, -, hexec⟩ | hnone | ⟨n, hn⟩ | ⟨v, hi, hv⟩ := access_cases x s
  · cases hr.symm.trans h
  · cases hv.symm.trans h; exact .none rfl
  · cases hv.symm.trans h; exact .none rfl
  · exact hostChange_command (hexec.symm.trans h)
  · cases hnone.symm.trans h; exact .none (sameCore_refl s)
  · cases hn.symm.trans h; exact hostChange_writeMsgLen n s
  · cases hv.symm.trans h; exact hostChange_writeMsg hi v

/-- While busy a host access changes nothing of the core. -/
theorem HostChange.sameCore_of_busy {s t : State} (h : HostChange s t) (hbusy : s.phase ≠ .idle) : SameCore s t := by
  cases h with
  | none h => exact h
  | length hidle | byte hidle | started hidle | badCmd hidle => exact absurd hidle hbusy

/-! ### A step -/

theorem hostTurn_hostChange {s t : State} (h : hostTurn s = .next t) :
    ∃ rest, HostChange { s with program := rest } t := by
  obtain hend | ⟨x, rest, haccess⟩ := hostTurn_cases s
  · cases hend.symm.trans h; exact ⟨s.program, .none rfl⟩
  · exact ⟨rest, access_hostChange (haccess.symm.trans h)⟩

theorem step_hostChange {s t : State} (hturn : nextTurn s = .host) (h : step s = .next t) :
    ∃ rest, HostChange { takeTurn s with program := rest } t :=
  hostTurn_hostChange ((step_host hturn).symm.trans h)

/-- A step is a host access, the operation of the phase, or a reset. -/
theorem step_cases {s t : State} (h : step s = .next t) :
    (nextTurn s = .host ∧ ∃ rest, HostChange { takeTurn s with program := rest } t) ∨
      (nextTurn s = .core ∧ exec (fetch (takeTurn s)) (takeTurn s) = .next t) ∨
      (nextTurn s = .reset ∧ t = resetEvent (takeTurn s)) := by
  cases hturn : nextTurn s with
  | host => exact .inl ⟨rfl, step_hostChange hturn h⟩
  | core => exact .inr (.inl ⟨rfl, (step_core hturn).symm.trans h⟩)
  | reset => cases (step_reset hturn).symm.trans h; exact .inr (.inr ⟨rfl, rfl⟩)

/-! ### The agents' turns -/

/-- Settles O49: the operation fetched is the one the phase's code decodes to. -/
theorem coreTurnRunsTheOperationOfThePhase : Obligations.CoreTurnRunsTheOperationOfThePhase := by
  refine fun s hturn => ⟨step_core hturn, ?_⟩
  cases s.phase <;> rfl

theorem statusWord_getLsbD_zero (s : State) : (statusWord s).getLsbD 0 = true ↔ s.phase ≠ .idle := by
  obtain ⟨-, -, -, -, -, -, -, hbusy⟩ := statusWordFields s
  exact hbusy

/-- A poll reads STATUS, and is used up only when the core is idle. -/
theorem hostTurn_pollIdle {s : State} {rest : List HostOp} (h : s.program = .pollIdle :: rest) :
    hostTurn s = .next (reply (statusWord s) { s with program := if s.phase = .idle then rest else s.program }) := by
  have hpoll : hostTurn s = if (statusWord s).getLsbD 0 then access (rd32 .status) s
      else access (rd32 .status) { s with program := rest } := by rw [hostTurn, h]
  rw [hpoll]
  by_cases hidle : s.phase = .idle
  · rw [if_neg (mt (statusWord_getLsbD_zero s).mp (not_not.mpr hidle)), if_pos hidle]
    rfl
  · rw [if_pos ((statusWord_getLsbD_zero s).mpr hidle), if_neg hidle]
    rfl

theorem hostTurn_bus {s : State} {x : Transaction} {rest : List HostOp} (h : s.program = .bus x :: rest) :
    hostTurn s = access x { s with program := rest } := by
  rw [hostTurn, h]

theorem hostTurn_nil {s : State} (h : s.program = []) : hostTurn s = .next s := by
  rw [hostTurn, h]

/-- Settles O50: the host's turn by the head of its program. -/
theorem hostTurnRunsTheNextTransaction : Obligations.HostTurnRunsTheNextTransaction := by
  intro s hturn
  rw [step_host hturn]
  exact ⟨hostTurn_nil (s := takeTurn s), fun x rest => hostTurn_bus (s := takeTurn s),
    fun v rest => hostTurn_bus (s := takeTurn s), fun rest => hostTurn_pollIdle (s := takeTurn s)⟩

theorem statusWord_eq_zero {s : State} (hphase : s.phase = .idle) (hdone : s.done = false) (herr : s.err = false)
    (hcode : s.errcode = .none) : statusWord s = 0 := by
  simp [statusWord, busy, hphase, hdone, herr, hcode, Phase.code, ErrCode.code]

/-- Settles O51: the reset event and the state after reset give the control fields the same values. -/
theorem resetClearsTheControlState : Obligations.ResetClearsTheControlState := by
  refine ⟨fun s hturn => ⟨_, step_reset hturn, rfl, rfl, rfl, rfl, rfl, statusWord_eq_zero rfl rfl rfl rfl, rfl, rfl, rfl,
    rfl⟩, rfl, rfl, rfl, rfl, rfl, statusWord_eq_zero rfl rfl rfl rfl⟩

/-! ### The message buffer -/

theorem HostChange.bufferOk {s t : State} (h : HostChange s t) (hs : BufferOk s) : BufferOk t := by
  cases h with
  | none h => exact h.bufferOk hs
  | byte _ hi v => exact ⟨memWrite_wf hs.canonical _ v, memWrite_within hs.within hi v⟩
  | length | started | badCmd => exact ⟨hs.canonical, hs.within⟩

theorem exec_bufferOk {i : Instr} {s t : State} (h : exec i s = .next t) (hs : BufferOk s) : BufferOk t := by
  obtain ⟨hmsg, -, hparams, -⟩ := exec_hostSide h
  exact ⟨hmsg ▸ hs.canonical, hparams ▸ hmsg ▸ hs.within⟩

theorem resetEvent_bufferOk (s : State) : BufferOk (resetEvent s) := ⟨drawnMemory_wf _ _, drawnMemory_within _ _⟩

/-- Settles O53: the host writes below the capacity in canonical form, no operation writes, and a reset draws a canonical
buffer. -/
theorem stepKeepsTheMessageBufferCanonical : Obligations.StepKeepsTheMessageBufferCanonical := by
  intro s t hs h
  obtain ⟨-, rest, hchange⟩ | ⟨-, hexec⟩ | ⟨-, rfl⟩ := step_cases h
  · exact hchange.bufferOk ((sameCore_takeTurn_program s rest).bufferOk hs)
  · exact exec_bufferOk hexec ((sameCore_takeTurn s).bufferOk hs)
  · exact resetEvent_bufferOk _

/-! ### The reserved phase and the error INTERNAL -/

/-- Neither the reserved phase nor the error INTERNAL comes up anew. -/
def NoNewInternal (s t : State) : Prop :=
  s.phase ≠ .reserved7 → t.phase ≠ .reserved7 ∧ (t.errcode = .internal → s.errcode = .internal)

theorem noNewInternal_check {s t : State} (h : exec .check s = .next t) : NoNewInternal s t := by
  obtain ⟨-, haccept⟩ | ⟨-, hover | hbig⟩ := execCheck_cases s
  · cases haccept.symm.trans h; simp [NoNewInternal]
  · cases hover.symm.trans h; simp [NoNewInternal]
  · cases hbig.symm.trans h; simp [NoNewInternal]

/-- The operations a phase other than the reserved one selects. -/
theorem exec_fetch_noNewInternal {s t : State} (h : exec (fetch s) s = .next t) : NoNewInternal s t := by
  rw [fetch_phase] at h
  cases hphase : s.phase with
  | check => rw [hphase] at h; exact noNewInternal_check h
  | reserved7 => exact fun hne => absurd hphase hne
  | idle | load | assemble => rw [hphase] at h; cases h; simp [NoNewInternal, hphase]
  | expand | round | feed =>
    rw [hphase] at h
    cases h
    refine fun _ => ⟨?_, id⟩
    dsimp only
    split <;> simp [hphase]

theorem HostChange.noNewInternal {s t : State} (h : HostChange s t) : NoNewInternal s t := by
  cases h with
  | none h => rw [h]; exact fun hne => ⟨hne, id⟩
  | length hidle | byte hidle => exact fun hne => ⟨hne, id⟩
  | started hidle | badCmd hidle => simp [NoNewInternal]

/-- Settles O21: an operation that enters an error is one of those named, and from another phase the operation run is not
that of the reserved phase. -/
theorem errorsComeOnlyFromTheirSources : Obligations.ErrorsComeOnlyFromTheirSources := by
  refine ⟨fun i s t hexec herr hnew => mayRaise_of_newError hexec herr hnew, fun s t hs h => ?_⟩
  obtain ⟨-, rest, hchange⟩ | ⟨-, hexec⟩ | ⟨-, rfl⟩ := step_cases h
  · exact hchange.noNewInternal hs
  · exact exec_fetch_noNewInternal (s := takeTurn s) hexec hs
  · simp

/-! ### Leaving IDLE -/

/-- The code of an accepted START is 1. -/
theorem code_of_started {v : Word} {s t : State} (h : exec (decodeCmd v) s = .next t) (ht : t.phase ≠ .idle)
    (hs : s.phase = .idle) : v.toNat % 16 = 0x1 ∧ t.phase = .check := by
  rw [exec_decodeCmd, afterCommand, reservedCommand_idle hs, if_pos hs] at h
  split_ifs at h with hnop hstart
  · cases h; exact absurd hs ht
  · cases h; exact ⟨cmdField_eq_iff_mod.mp hstart, rfl⟩
  · cases h; exact absurd rfl ht

/-- The one transaction that makes an idle core busy. -/
theorem access_leaves_idle {x : Transaction} {s t : State} (h : access x s = .next t) (hs : s.phase = .idle)
    (ht : t.phase ≠ .idle) :
    t.phase = .check ∧ ∃ v, x = ⟨.reg, .write v, 0x00, 32⟩ ∧ v.toNat % 16 = 0x1 := by
  obtain ⟨r, hr⟩ | ⟨v, hv | hv⟩ | ⟨v, haccess, hspace, hwidth, hctrl, hexec⟩ | hnone | ⟨n, hn⟩ | ⟨v, -, hv⟩ :=
    access_cases x s
  · cases hr.symm.trans h
  · cases hv.symm.trans h; exact absurd hs ht
  · cases hv.symm.trans h; exact absurd hs ht
  · obtain ⟨hcode, hcheck⟩ := code_of_started (hexec.symm.trans h) ht hs
    exact ⟨hcheck, v, eq_ctrl_write haccess hspace hwidth hctrl, hcode⟩
  · cases hnone.symm.trans h; exact absurd hs ht
  · cases hn.symm.trans h; simp [hs] at ht
  · cases hv.symm.trans h; simp [hs] at ht

theorem hostTurn_leaves_idle {s t : State} (h : hostTurn s = .next t) (hs : s.phase = .idle) (ht : t.phase ≠ .idle) :
    t.phase = .check ∧ ∃ v rest, s.program = .bus ⟨.reg, .write v, 0x00, 32⟩ :: rest ∧ v.toNat % 16 = 0x1 := by
  match hprogram : s.program with
  | [] =>
    cases (hostTurn_nil hprogram).symm.trans h
    exact absurd hs ht
  | .pollIdle :: rest =>
    cases (hostTurn_pollIdle hprogram).symm.trans h
    exact absurd hs ht
  | .bus x :: rest =>
    obtain ⟨hcheck, v, rfl, hcode⟩ := access_leaves_idle ((hostTurn_bus hprogram).symm.trans h) hs ht
    exact ⟨hcheck, v, rest, rfl, hcode⟩

/-- Settles O23: a core turn in IDLE and a reset leave the core idle, and of the host's turns only START does not. -/
theorem onlyStartLeavesIdle : Obligations.OnlyStartLeavesIdle := by
  intro s t h hs ht
  cases hturn : nextTurn s with
  | core =>
    cases (step_idle hturn hs).symm.trans h
    exact absurd hs ht
  | host => exact ⟨rfl, hostTurn_leaves_idle (s := takeTurn s) ((step_host hturn).symm.trans h) hs ht⟩
  | reset =>
    cases (step_reset hturn).symm.trans h
    exact absurd rfl ht

end Sys2Proof.Machine
end

section
/-!
PROOFS. The control invariant (R25, R27, R60, R84). Under it every operand of a core step is in the range of its rule, so
that `CoreChange` lists what the core's turn can do without a free value; the invariant is then shown phase by phase.
-/
namespace Sys2Proof.Machine

open Sys2Proof.Safety

/-! ### The invariant, by the phase it is for -/

section
variable {t : State}

/-- In IDLE the invariant is about the flags only. -/
theorem inv_of_idle (hphase : t.phase = .idle) (herr : t.err = true ↔ t.errcode ≠ .none)
    (hboth : ¬(t.done = true ∧ t.err = true)) : Inv t := by
  refine ⟨?_, herr, hboth, ?_, ?_, ?_, ?_, ?_, ?_, ?_⟩ <;> simp [hphase]

theorem inv_of_check (hphase : t.phase = .check) (hdone : t.done = false) (herr : t.err = false)
    (hcode : t.errcode = .none) : Inv t := by
  refine ⟨?_, ?_, ?_, ?_, ?_, ?_, ?_, ?_, ?_, ?_⟩ <;> simp [hphase, hdone, herr, hcode]

theorem inv_raiseError {c : ErrCode} (hc : c ≠ .none) (s : State) : Inv (raiseError c s) :=
  inv_of_idle rfl (by simp [hc]) (by simp)

end

/-- What the invariant says of the schedule position, phase by phase. -/
def PositionOk (s : State) : Prop :=
  match s.phase with
  | .idle | .check | .reserved7 => False
  | .load => s.blk.toNat < s.nblk.toNat
  | .expand => (16 ≤ s.t.toNat ∧ s.t.toNat ≤ 63) ∧ s.blk.toNat < s.nblk.toNat
  | .round => s.t.toNat ≤ 63 ∧ s.blk.toNat < s.nblk.toNat
  | .feed => s.t = 64 ∧ s.blk.toNat < s.nblk.toNat
  | .assemble => s.t = 64 ∧ s.blk = s.nblk

/-- What CHECK has established for a hash, and no later step touches. -/
structure Accepted (s : State) : Prop where
  done : s.done = false
  err : s.err = false
  errcode : s.errcode = .none
  length : lengthOk s.params.msgMaxBytes s.msgLen.toNat
  blocks : s.nblk.toNat = nBlocks s.msgLen.toNat

theorem inv_of_accepted {t : State} (h : Accepted t) (hposition : PositionOk t) : Inv t := by
  obtain ⟨hdone, herr, hcode, hlength, hblocks⟩ := h
  refine ⟨?_, by simp [herr, hcode], by simp [hdone], fun _ => ⟨hdone, herr⟩, ?_, ?_, ?_, fun _ => ⟨hlength, hblocks⟩,
    ?_, ?_⟩
  all_goals
    unfold PositionOk at hposition
    cases hphase : t.phase <;> simp_all

section
variable {s : State} (h : Inv s)
include h

theorem inv_flagsClear (hbusy : s.phase ≠ .idle) : s.done = false ∧ s.err = false ∧ s.errcode = .none := by
  obtain ⟨hdone, herr⟩ := h.busyClear hbusy
  exact ⟨hdone, herr, by simpa [herr] using h.errIff⟩

theorem inv_isAccepted (hhash : hashing s) : Accepted s := by
  obtain ⟨hdone, herr, hcode⟩ := inv_flagsClear h hhash.1
  obtain ⟨hlength, hblocks⟩ := h.accepted hhash
  exact ⟨hdone, herr, hcode, hlength, hblocks⟩

theorem inv_sameCore {t : State} (hsame : SameCore s t) : Inv t := by
  obtain ⟨hreserved, herr, hboth, hclear, hexpand, hround, hfeed, haccepted, hblk, hdone⟩ := h
  rw [hsame]
  exact ⟨hreserved, herr, hboth, hclear, hexpand, hround, hfeed, haccepted, hblk, hdone⟩

theorem inv_loadInRange (hphase : s.phase = .load) : loadInRange s := by
  have hhash : hashing s := by simp [hashing, hphase]
  obtain ⟨hlength, hblocks⟩ := h.accepted hhash
  exact ⟨hlength, hblocks ▸ h.blockLt hhash (by simp [hphase])⟩

end

/-! ### What a core step does -/

/-- Everything a core step of a state that meets the invariant can do: one constructor per phase, and two where the step
may leave the phase. -/
inductive CoreChange (s : State) : State → Prop
  | idle (hphase : s.phase = .idle) : CoreChange s s
  | rejected (hphase : s.phase = .check) (hreject : ¬lengthOk s.params.msgMaxBytes s.msgLen.toNat) :
    CoreChange s (raiseError (rejectCode s) s)
  | accepted (hphase : s.phase = .check) (hlength : lengthOk s.params.msgMaxBytes s.msgLen.toNat) :
    CoreChange s { s with
      nblk := BitVec.ofNat 64 (nBlocks s.msgLen.toNat), blk := 0#64, hs := romIV, phase := .load }
  | load (hphase : s.phase = .load) (hrange : loadInRange s) :
    CoreChange s { s with
      w := replaceFirst16 s.w (loadWord (loadByte s) (64 * s.blk.toNat))
      work := Work.ofHash s.hs, t := 16#7, phase := .expand }
  | expandMore (hphase : s.phase = .expand) (hlow : 16 ≤ s.t.toNat) (hhigh : s.t.toNat < 63) :
    CoreChange s { s with
      w := s.w.set s.t.toNat (scheduleSum s.w[s.t.toNat - 2] s.w[s.t.toNat - 7] s.w[s.t.toNat - 15] s.w[s.t.toNat - 16])
      t := s.t + 1#7 }
  | expandLast (hphase : s.phase = .expand) (hlast : s.t.toNat = 63) :
    CoreChange s { s with
      w := s.w.set 63 (scheduleSum s.w[61] s.w[56] s.w[48] s.w[47]), t := 0#7, phase := .round }
  | roundMore (hphase : s.phase = .round) (hindex : s.t.toNat < 63) :
    CoreChange s { s with work := roundStep romK[s.t.toNat] s.w[s.t.toNat] s.work, t := s.t + 1#7 }
  | roundLast (hphase : s.phase = .round) (hlast : s.t.toNat = 63) :
    CoreChange s { s with work := roundStep romK[63] s.w[63] s.work, t := 64#7, phase := .feed }
  | feedMore (hphase : s.phase = .feed) (hmore : s.blk.toNat + 1 < s.nblk.toNat) :
    CoreChange s { s with hs := feedForward s.hs s.work, blk := s.blk + 1#64, phase := .load }
  | feedLast (hphase : s.phase = .feed) (hlast : s.blk.toNat + 1 = s.nblk.toNat) :
    CoreChange s { s with hs := feedForward s.hs s.work, blk := s.nblk, phase := .assemble }
  | assemble (hphase : s.phase = .assemble) :
    CoreChange s { s with dout := assembleDigest s.hs, done := true, phase := .idle }

section
variable {s t : State}

theorem execCheck_coreChange (hphase : s.phase = .check) (h : execCheck s = .next t) : CoreChange s t := by
  by_cases hlength : lengthOk s.params.msgMaxBytes s.msgLen.toNat
  · cases (execCheck_accepted hlength).symm.trans h; exact .accepted hphase hlength
  · cases (execCheck_rejected hlength).symm.trans h; exact .rejected hphase hlength

theorem execExpand_coreChange (hInv : Inv s) (hphase : s.phase = .expand) (h : execExpand s = .next t) :
    CoreChange s t := by
  obtain ⟨hlow, hhigh⟩ := hInv.expandIndex hphase
  obtain hlast | hmore : s.t.toNat = 63 ∨ s.t.toNat < 63 := by omega
  · cases (execExpand_last hlast).symm.trans h; exact .expandLast hphase hlast
  · cases (execExpand_more hlow hmore).symm.trans h; exact .expandMore hphase hlow hmore

theorem execRound_coreChange (hInv : Inv s) (hphase : s.phase = .round) (h : execRound s = .next t) :
    CoreChange s t := by
  have hindex := hInv.roundIndex hphase
  obtain hlast | hmore : s.t.toNat = 63 ∨ s.t.toNat < 63 := by omega
  · cases (execRound_last hlast).symm.trans h; exact .roundLast hphase hlast
  · cases (execRound_more hmore).symm.trans h; exact .roundMore hphase hmore

theorem execFeed_coreChange (hInv : Inv s) (hphase : s.phase = .feed) (h : execFeed s = .next t) :
    CoreChange s t := by
  have hblk := hInv.blockLt (by simp [hashing, hphase]) (by simp [hphase])
  obtain hlast | hmore : s.blk.toNat + 1 = s.nblk.toNat ∨ s.blk.toNat + 1 < s.nblk.toNat := by omega
  · cases (execFeed_last hlast).symm.trans h; exact .feedLast hphase hlast
  · cases (execFeed_more hmore).symm.trans h; exact .feedMore hphase hmore

theorem exec_coreChange (hInv : Inv s) (h : exec (fetch s) s = .next t) : CoreChange s t := by
  rw [fetch_phase] at h
  cases hphase : s.phase <;> rw [hphase] at h
  case idle => cases h; exact .idle hphase
  case check => exact execCheck_coreChange hphase h
  case load =>
    have hrange := inv_loadInRange hInv hphase
    cases (execLoad_inRange hrange).symm.trans h
    exact .load hphase hrange
  case expand => exact execExpand_coreChange hInv hphase h
  case round => exact execRound_coreChange hInv hphase h
  case feed => exact execFeed_coreChange hInv hphase h
  case assemble => cases h; exact .assemble hphase
  case reserved7 => exact absurd hphase hInv.notReserved

end

/-- A step under the invariant: a change by the host, a change by the core, or a reset. -/
theorem step_changes {s t : State} (hInv : Inv s) (h : step s = .next t) :
    (nextTurn s = .host ∧ ∃ rest, HostChange { takeTurn s with program := rest } t) ∨
      (nextTurn s = .core ∧ CoreChange (takeTurn s) t) ∨ (nextTurn s = .reset ∧ t = resetEvent (takeTurn s)) := by
  obtain hhost | ⟨hturn, hexec⟩ | hreset := step_cases h
  · exact .inl hhost
  · exact .inr (.inl ⟨hturn, exec_coreChange (inv_sameCore hInv (sameCore_takeTurn s)) hexec⟩)
  · exact .inr (.inr hreset)

/-! ### The invariant is kept -/

theorem HostChange.inv {s t : State} (h : HostChange s t) (hInv : Inv s) : Inv t := by
  cases h with
  | none h => exact inv_sameCore hInv h
  | length hidle | byte hidle => exact inv_of_idle hidle hInv.errIff hInv.notBoth
  | started => exact inv_of_check rfl rfl rfl rfl
  | badCmd => exact inv_raiseError (by decide) _

theorem rejectCode_ne_none (s : State) : rejectCode s ≠ .none := by unfold rejectCode; split <;> simp

theorem index_succ_toNat {i : Index} (h : i.toNat < 127) : (i + 1#7).toNat = i.toNat + 1 := by bv_omega

theorem blk_succ_toNat {b n : U64} (h : b.toNat + 1 < n.toNat) : (b + 1#64).toNat = b.toNat + 1 := by bv_omega

/-- The accepted length of a hash starts it at its first block. -/
theorem inv_accepted {s : State} (hInv : Inv s) (hphase : s.phase = .check)
    (hlength : lengthOk s.params.msgMaxBytes s.msgLen.toNat) :
    Inv { s with nblk := BitVec.ofNat 64 (nBlocks s.msgLen.toNat), blk := 0#64, hs := romIV, phase := .load } := by
  obtain ⟨hdone, herr, hcode⟩ := inv_flagsClear hInv (by simp [hphase])
  have hblocks : (BitVec.ofNat 64 (nBlocks s.msgLen.toNat)).toNat = nBlocks s.msgLen.toNat := nBlocks_toNat hlength.1
  have hfirst : (0#64).toNat < (BitVec.ofNat 64 (nBlocks s.msgLen.toNat)).toNat := by
    rw [hblocks, nBlocks_eq]; simp
  exact inv_of_accepted ⟨hdone, herr, hcode, hlength, hblocks⟩ hfirst

theorem CoreChange.inv_of_not_hashing {s t : State} (h : CoreChange s t) (hInv : Inv s) (hhash : ¬hashing s) : Inv t := by
  cases h with
  | idle => exact hInv
  | rejected => exact inv_raiseError (rejectCode_ne_none s) s
  | accepted hphase hlength => exact inv_accepted hInv hphase hlength
  | load hphase | expandMore hphase | expandLast hphase | roundMore hphase | roundLast hphase | feedMore hphase
  | feedLast hphase | assemble hphase => exact absurd (by simp [hashing, hphase]) hhash

theorem CoreChange.inv_of_hashing {s t : State} (h : CoreChange s t) (hInv : Inv s) (hhash : hashing s) : Inv t := by
  obtain ⟨hdone, herr, hcode, hlength, hblocks⟩ := inv_isAccepted hInv hhash
  have hblk := hInv.blockLt hhash
  cases h with
  | idle hphase | rejected hphase | accepted hphase => simp [hashing, hphase] at hhash
  | load hphase =>
    exact inv_of_accepted ⟨hdone, herr, hcode, hlength, hblocks⟩ ⟨⟨le_rfl, by simp⟩, hblk (by simp [hphase])⟩
  | expandMore hphase hlow hhigh =>
    have hindex : (s.t + 1#7).toNat = s.t.toNat + 1 := index_succ_toNat (by omega)
    have hposition : (16 ≤ (s.t + 1#7).toNat ∧ (s.t + 1#7).toNat ≤ 63) ∧ s.blk.toNat < s.nblk.toNat :=
      ⟨by omega, hblk (by simp [hphase])⟩
    exact inv_of_accepted ⟨hdone, herr, hcode, hlength, hblocks⟩ (by simpa only [PositionOk, hphase] using hposition)
  | expandLast hphase =>
    exact inv_of_accepted ⟨hdone, herr, hcode, hlength, hblocks⟩ ⟨by simp, hblk (by simp [hphase])⟩
  | roundMore hphase hindex =>
    have hsucc : (s.t + 1#7).toNat = s.t.toNat + 1 := index_succ_toNat (by omega)
    have hposition : (s.t + 1#7).toNat ≤ 63 ∧ s.blk.toNat < s.nblk.toNat := ⟨by omega, hblk (by simp [hphase])⟩
    exact inv_of_accepted ⟨hdone, herr, hcode, hlength, hblocks⟩ (by simpa only [PositionOk, hphase] using hposition)
  | roundLast hphase =>
    exact inv_of_accepted ⟨hdone, herr, hcode, hlength, hblocks⟩ ⟨rfl, hblk (by simp [hphase])⟩
  | feedMore hphase hmore =>
    have hposition : (s.blk + 1#64).toNat < s.nblk.toNat := by rwa [blk_succ_toNat hmore]
    exact inv_of_accepted ⟨hdone, herr, hcode, hlength, hblocks⟩ hposition
  | feedLast hphase =>
    exact inv_of_accepted ⟨hdone, herr, hcode, hlength, hblocks⟩ ⟨hInv.feedIndex (.inl hphase), rfl⟩
  | assemble => exact inv_of_idle rfl (by simp [herr, hcode]) (by simp [herr])

theorem CoreChange.inv {s t : State} (h : CoreChange s t) (hInv : Inv s) : Inv t := by
  by_cases hhash : hashing s
  · exact h.inv_of_hashing hInv hhash
  · exact h.inv_of_not_hashing hInv hhash

theorem resetEvent_inv (s : State) : Inv (resetEvent s) := inv_of_idle rfl (by simp) (by simp)

/-- Settles O54: by the agent of the step, and for the core by the phase it is in. -/
theorem stepKeepsTheControlInvariant : Obligations.StepKeepsTheControlInvariant := by
  intro s t hInv h
  obtain ⟨-, rest, hchange⟩ | ⟨-, hchange⟩ | ⟨-, rfl⟩ := step_changes hInv h
  · exact hchange.inv (inv_sameCore hInv (sameCore_takeTurn_program s rest))
  · exact hchange.inv (inv_sameCore hInv (sameCore_takeTurn s))
  · exact resetEvent_inv _

end Sys2Proof.Machine
end

section
/-!
PROOFS. The datapath and the hash (R63, R70, R73, R79 to R83). One lemma per operation says which part of the block's
schedule or compression it computes; the invariant `Tracks` and the run of a block's operations are both made of them.
-/
namespace Sys2Proof.Machine

open Sys2Proof.Safety

/-! ### One operation's part of the schedule and of the compression -/

/-- The words LOAD packs are the first 16 of the block's schedule. -/
theorem load_word_eq {s : State} (hrange : loadInRange s) {j : Nat} (hj : j < 16) :
    loadWord (loadByte s) (64 * s.blk.toNat) j = (scheduleNow s)[j] := by
  obtain ⟨hlength, hblk⟩ := hrange
  have hbyte {k : Nat} (hk : k < 64) :
      (block (padded s) s.blk.toNat).getD k 0 = loadByte s (64 * s.blk.toNat + k) := by
    have hi : 64 * s.blk.toNat + k < padLen s.msgLen.toNat := by rw [padLen_eq_nBlocks]; omega
    rw [List.getD_eq_getElem?_getD, padded, block_pad_getElem? s.msg hlength hblk hk,
      padByte_eq_some_loadByte hlength hi, Option.getD_some]
  rw [scheduleNow, expand_getElem_of_lt_sixteen _ hj, hbyte (by omega), hbyte (by omega), hbyte (by omega),
    hbyte (by omega)]
  rfl

/-- The recurrence of R63 in the schedule of a block. -/
theorem expand_getElem_recurrence (b : List Byte) {t : Nat} (hlow : 16 ≤ t) (ht : t < 64) :
    (expand b)[t] =
      scheduleSum (expand b)[t - 2] (expand b)[t - 7] (expand b)[t - 15] (expand b)[t - 16] := by
  obtain ⟨k, rfl⟩ := Nat.exists_eq_add_of_le hlow
  have h2 : 16 + k - 2 = 14 + k := by omega
  have h7 : 16 + k - 7 = 9 + k := by omega
  have h15 : 16 + k - 15 = 1 + k := by omega
  have h16 : 16 + k - 16 = k := by omega
  simp only [h2, h7, h15, h16]
  exact expandWords_getElem_recurrence _ (by omega) (by omega)

/-- The first `t` words are those of the schedule of `b`. -/
def HasPrefix (w : Vector Word 64) (b : List Byte) (t : Nat) : Prop := ∀ j (_ : j < 64), j < t → w[j] = (expand b)[j]

/-- The word EXPAND computes is the next one of the schedule. -/
theorem hasPrefix_set {w : Vector Word 64} {b : List Byte} {t : Nat} (h : HasPrefix w b t) (hlow : 16 ≤ t)
    (ht : t < 64) :
    HasPrefix (w.set t (scheduleSum w[t - 2] w[t - 7] w[t - 15] w[t - 16])) b (t + 1) := by
  intro j hj hjt
  by_cases heq : j = t
  · subst heq
    rw [Vector.getElem_set_self, expand_getElem_recurrence b hlow ht, h (j - 2) (by omega) (by omega),
      h (j - 7) (by omega) (by omega), h (j - 15) (by omega) (by omega), h (j - 16) (by omega) (by omega)]
  · rw [Vector.getElem_set_ne ht hj (Ne.symm heq), h j hj (by omega)]

theorem eq_expand_of_hasPrefix {w : Vector Word 64} {b : List Byte} (h : HasPrefix w b 64) : w = expand b := by
  apply Vector.ext
  exact fun j hj => h j hj hj

theorem load_hasPrefix {s : State} (hrange : loadInRange s) :
    HasPrefix (replaceFirst16 s.w (loadWord (loadByte s) (64 * s.blk.toNat))) (block (padded s) s.blk.toNat) 16 := by
  intro j hj hlow
  rw [replaceFirst16_getElem, if_pos hlow, load_word_eq hrange hlow]
  rfl

/-! ### The operations of a block, one after another -/

theorem execAll_append {is js : List Instr} {s u : State} (h : execAll is s = .next u) :
    execAll (is ++ js) s = execAll js u := by
  induction is generalizing s with
  | nil => cases h; rfl
  | cons i is ih =>
    obtain ⟨t, ht⟩ := exec_answers i s
    rw [execAll, ht] at h
    rw [List.cons_append, execAll, ht]
    exact ih h

theorem execAll_cons {i : Instr} {is : List Instr} {s t : State} (h : exec i s = .next t) :
    execAll (i :: is) s = execAll is t := by rw [execAll, h]

/-- An operation repeated `n` times, where each of them takes one stage to the next. -/
theorem execAll_replicate {i : Instr} {P : Nat → State → Prop} {n : Nat}
    (hstep : ∀ k, k < n → ∀ u, P k u → ∃ v, exec i u = .next v ∧ P (k + 1) v) {s : State} (hs : P 0 s) :
    ∃ t, execAll (List.replicate n i) s = .next t ∧ P n t := by
  induction n with
  | zero => exact ⟨s, rfl, hs⟩
  | succ n ih =>
    obtain ⟨u, hrun, hu⟩ := ih fun k hk => hstep k (by omega)
    obtain ⟨v, hv, hPv⟩ := hstep n n.lt_succ_self u hu
    refine ⟨v, ?_, hPv⟩
    rw [List.replicate_succ', execAll_append hrun, execAll_cons hv, execAll]

/-- The state after the LOAD of the block of `s` and `k` EXPAND steps that stay in EXPAND. -/
structure Expanding (s : State) (k : Nat) (u : State) : Prop where
  index : u.t.toNat = 16 + k
  words : HasPrefix u.w (block (padded s) s.blk.toNat) (16 + k)
  loaded : u.work = Work.ofHash s.hs
  hs : u.hs = s.hs
  blk : u.blk = s.blk

/-- The state after the whole schedule and `k` ROUND steps. -/
structure Rounding (s : State) (k : Nat) (u : State) : Prop where
  index : u.t.toNat = k
  words : u.w = scheduleNow s
  mixed : u.work = rounds k (scheduleNow s) (Work.ofHash s.hs)
  hs : u.hs = s.hs
  blk : u.blk = s.blk

section
variable {s u : State}

theorem load_expanding (hrange : loadInRange s) : ∃ t, exec .load s = .next t ∧ Expanding s 0 t :=
  ⟨_, execLoad_inRange hrange, ⟨rfl, load_hasPrefix hrange, rfl, rfl, rfl⟩⟩

theorem expand_expanding {k : Nat} (hk : k < 47) (h : Expanding s k u) :
    ∃ v, exec .expand u = .next v ∧ Expanding s (k + 1) v := by
  obtain ⟨hindex, hwords, hloaded, hhs, hblk⟩ := h
  have hsucc : (u.t + 1#7).toNat = 16 + (k + 1) := by rw [index_succ_toNat (by omega), hindex, Nat.add_assoc]
  rw [← hindex] at hwords
  refine ⟨_, execExpand_more (by omega) (by omega), hsucc, ?_, hloaded, hhs, hblk⟩
  rw [← Nat.add_assoc, ← hindex]
  exact hasPrefix_set hwords (by omega) (by omega)

theorem expand_rounding (h : Expanding s 47 u) :
    ∃ v, exec .expand u = .next v ∧ Rounding s 0 v ∧ v.phase = .round := by
  obtain ⟨hindex, hwords, hloaded, hhs, hblk⟩ := h
  have hwhole := hasPrefix_set hwords (by decide) (by decide)
  exact ⟨_, execExpand_last hindex, ⟨rfl, eq_expand_of_hasPrefix hwhole, hloaded, hhs, hblk⟩, rfl⟩

theorem round_rounding {k : Nat} (hk : k < 64) (h : Rounding s k u) :
    ∃ v, exec .round u = .next v ∧ Rounding s (k + 1) v := by
  obtain ⟨rfl, hwords, hmixed, hhs, hblk⟩ := h
  have hsucc : (u.t + 1#7).toNat = u.t.toNat + 1 := index_succ_toNat (by omega)
  refine ⟨_, execRound_inRange (by omega), hsucc, hwords, ?_, hhs, hblk⟩
  rw [rounds_succ hk, ← hmixed, ← hwords]

theorem feed_compressed (h : Rounding s 64 u) (hfits : s.blk.toNat + 1 < 2 ^ 64) :
    ∃ v, exec .feed u = .next v ∧ v.hs = compress s.hs (scheduleNow s) ∧ v.blk.toNat = s.blk.toNat + 1 := by
  obtain ⟨-, -, hmixed, hhs, hblk⟩ := h
  rw [← hblk] at hfits
  refine ⟨_, execFeed_inRange hfits, ?_, ?_⟩
  · rw [compress, ← hmixed, ← hhs]
  · rw [BitVec.toNat_ofNat, Nat.mod_eq_of_lt hfits, hblk]

theorem loadAndExpand_rounding (hrange : loadInRange s) :
    ∃ t, execAll (.load :: List.replicate 48 .expand) s = .next t ∧ Rounding s 0 t ∧ t.phase = .round := by
  obtain ⟨u, hload, hu⟩ := load_expanding hrange
  obtain ⟨v, hexpand, hv⟩ := execAll_replicate (fun k hk u => expand_expanding hk) hu
  obtain ⟨t, hlast, ht⟩ := expand_rounding hv
  refine ⟨t, ?_, ht⟩
  rw [execAll_cons hload, List.replicate_succ', execAll_append hexpand, execAll_cons hlast, execAll]

theorem blockSteps_compressed (hrange : loadInRange s) :
    ∃ t, execAll (.load :: (List.replicate 48 .expand ++ List.replicate 64 .round ++ [.feed])) s = .next t ∧
      t.hs = compress s.hs (scheduleNow s) ∧ t.blk.toNat = s.blk.toNat + 1 := by
  have hfits : s.blk.toNat + 1 < 2 ^ 64 := by
    have hcount := nBlocks_eq s.msgLen.toNat
    obtain ⟨⟨hlength, -⟩, hblk⟩ := hrange
    omega
  obtain ⟨u, hschedule, hu, -⟩ := loadAndExpand_rounding hrange
  obtain ⟨v, hround, hv⟩ := execAll_replicate (fun k hk u => round_rounding hk) hu
  obtain ⟨t, hfeed, ht⟩ := feed_compressed hv hfits
  refine ⟨t, ?_, ht⟩
  rw [List.append_assoc, ← List.cons_append, execAll_append hschedule, execAll_append hround, execAll_cons hfeed, execAll]

end

/-- Settles O15: LOAD leaves the first 16 words, each EXPAND one more, and each ROUND one round more. -/
theorem stepsOfABlockExpandAndCompressIt : Obligations.StepsOfABlockExpandAndCompressIt := by
  intro s hlength hblk
  have hrange : loadInRange s := ⟨hlength, hblk⟩
  refine ⟨?load, ?schedule, blockSteps_compressed hrange⟩
  case load =>
    obtain ⟨t, hload, ht⟩ := load_expanding hrange
    exact ⟨t, hload, ht.words⟩
  case schedule =>
    obtain ⟨t, hrun, ht, hphase⟩ := loadAndExpand_rounding hrange
    exact ⟨t, hrun, ht.words, BitVec.eq_of_toNat_eq ht.index, hphase⟩

/-! ### The datapath invariant -/

section
variable {t : State}

/-- Outside a hash that CHECK has accepted, nothing is claimed of the datapath. -/
theorem tracks_of_idle_or_check (hphase : t.phase = .idle ∨ t.phase = .check) : Tracks t := by
  obtain hphase | hphase := hphase <;> refine ⟨?_, ?_, ?_, ?_, ?_⟩ <;> simp [hphase]

variable {s : State} (hmsg : t.msg = s.msg) (hlen : t.msgLen = s.msgLen)
include hmsg hlen

/-- Between blocks only the hash state counts. -/
theorem tracks_of_load_or_assemble (hphase : t.phase = .load ∨ t.phase = .assemble)
    (hhs : t.hs = absorb (padded s) t.blk.toNat) : Tracks t := by
  rw [← padded_congr hmsg hlen] at hhs
  refine ⟨fun _ => hhs, ?_, ?_, ?_, ?_⟩ <;> obtain hphase | hphase := hphase <;> simp [hphase]

variable (hblk : t.blk = s.blk) (hhs : t.hs = absorb (padded s) s.blk.toNat)
include hblk hhs

theorem tracks_of_expand (hphase : t.phase = .expand)
    (hwords : HasPrefix t.w (block (padded s) s.blk.toNat) t.t.toNat) (hloaded : t.work = Work.ofHash t.hs) :
    Tracks t := by
  rw [← padded_congr hmsg hlen, ← hblk] at hhs hwords
  exact ⟨fun _ => hhs, fun _ => hwords, fun _ => hloaded, by simp [hphase], by simp [hphase]⟩

theorem tracks_of_round_or_feed (hphase : t.phase = .round ∨ t.phase = .feed) (hwords : t.w = scheduleNow s)
    (hmixed : t.work = rounds t.t.toNat (scheduleNow s) (Work.ofHash t.hs)) : Tracks t := by
  rw [← padded_congr hmsg hlen, ← hblk] at hhs
  rw [← scheduleNow_congr hmsg hlen hblk] at hwords hmixed
  refine ⟨fun _ => hhs, ?_, ?_, fun _ => hwords, fun _ => hmixed⟩ <;> obtain hphase | hphase := hphase <;> simp [hphase]

end

theorem tracks_sameCore {s t : State} (h : Tracks s) (hsame : SameCore s t) : Tracks t := by
  obtain ⟨hhs, hwords, hloaded, hall, hmixed⟩ := h
  rw [hsame]
  exact ⟨hhs, hwords, hloaded, hall, hmixed⟩

theorem HostChange.tracks {s t : State} (h : HostChange s t) (hTracks : Tracks s) : Tracks t := by
  cases h with
  | none h => exact tracks_sameCore hTracks h
  | length hidle | byte hidle => exact tracks_of_idle_or_check (.inl hidle)
  | started => exact tracks_of_idle_or_check (.inr rfl)
  | badCmd => exact tracks_of_idle_or_check (.inl rfl)

theorem absorb_zero (p : List Byte) : absorb p 0 = romIV := by rw [absorb]

theorem rounds_zero (w : Vector Word 64) (r : Work) : rounds 0 w r = r := by rw [rounds]

/-- FEED closes the block: the state it adds up is that after one block more (R70, R73). -/
theorem feedForward_eq_absorb {s : State} (hTracks : Tracks s) (hphase : s.phase = .feed) (hindex : s.t = 64) :
    feedForward s.hs s.work = absorb (padded s) (s.blk.toNat + 1) := by
  have hhs := hTracks.hashState (by simp [hashing, hphase])
  have hmixed : s.work = rounds 64 (scheduleNow s) (Work.ofHash s.hs) := by
    have hwork := hTracks.mixed (.inr hphase)
    rwa [hindex] at hwork
  rw [hmixed, absorb, ← hhs, compress, scheduleNow]

/-- A ROUND mixes in the next word of the schedule. -/
theorem roundStep_eq_rounds {s : State} (hTracks : Tracks s) (hphase : s.phase = .round) (hindex : s.t.toNat < 64) :
    roundStep romK[s.t.toNat] s.w[s.t.toNat] s.work =
      rounds (s.t.toNat + 1) (scheduleNow s) (Work.ofHash s.hs) := by
  rw [rounds_succ hindex, ← hTracks.mixed (.inl hphase), ← hTracks.allWords (.inl hphase)]

theorem CoreChange.tracks {s t : State} (h : CoreChange s t) (hInv : Inv s) (hTracks : Tracks s) : Tracks t := by
  cases h with
  | idle => exact hTracks
  | rejected => exact tracks_of_idle_or_check (.inl rfl)
  | accepted => exact tracks_of_load_or_assemble (s := s) rfl rfl (.inl rfl) (absorb_zero _).symm
  | load hphase hrange =>
    have hhs := hTracks.hashState (by simp [hashing, hphase])
    exact tracks_of_expand (s := s) rfl rfl rfl hhs rfl (load_hasPrefix hrange) rfl
  | expandMore hphase hlow hhigh =>
    have hhs := hTracks.hashState (by simp [hashing, hphase])
    have hsucc : (s.t + 1#7).toNat = s.t.toNat + 1 := index_succ_toNat (by omega)
    have hwords := hasPrefix_set (hTracks.prefixWords hphase) hlow (by omega)
    rw [← hsucc] at hwords
    exact tracks_of_expand (s := s) rfl rfl rfl hhs hphase hwords (hTracks.loaded hphase)
  | expandLast hphase hlast =>
    have hhs := hTracks.hashState (by simp [hashing, hphase])
    have hwords := hTracks.prefixWords hphase
    rw [hlast] at hwords
    have hwhole := eq_expand_of_hasPrefix (hasPrefix_set hwords (by decide) (by decide))
    have hloaded := (hTracks.loaded hphase).trans (rounds_zero (scheduleNow s) _).symm
    exact tracks_of_round_or_feed (s := s) rfl rfl rfl hhs (.inl rfl) hwhole hloaded
  | roundMore hphase hindex =>
    have hhs := hTracks.hashState (by simp [hashing, hphase])
    have hsucc : (s.t + 1#7).toNat = s.t.toNat + 1 := index_succ_toNat (by omega)
    have hmixed := roundStep_eq_rounds hTracks hphase (by omega)
    rw [← hsucc] at hmixed
    exact tracks_of_round_or_feed (s := s) rfl rfl rfl hhs (.inl hphase) (hTracks.allWords (.inl hphase)) hmixed
  | roundLast hphase hlast =>
    have hhs := hTracks.hashState (by simp [hashing, hphase])
    have hmixed := roundStep_eq_rounds hTracks hphase (by omega)
    simp only [hlast] at hmixed
    exact tracks_of_round_or_feed (s := s) rfl rfl rfl hhs (.inr rfl) (hTracks.allWords (.inl hphase)) hmixed
  | feedMore hphase hmore =>
    have hhs := feedForward_eq_absorb hTracks hphase (hInv.feedIndex (.inl hphase))
    rw [← blk_succ_toNat hmore] at hhs
    exact tracks_of_load_or_assemble (s := s) rfl rfl (.inl rfl) hhs
  | feedLast hphase hlast =>
    have hhs := feedForward_eq_absorb hTracks hphase (hInv.feedIndex (.inl hphase))
    rw [hlast] at hhs
    exact tracks_of_load_or_assemble (s := s) rfl rfl (.inr rfl) hhs
  | assemble => exact tracks_of_idle_or_check (.inl rfl)

/-- Settles O55: by the agent of the step; the core's operations each add their part to the schedule or the compression. -/
theorem stepKeepsTheDatapathOnTheHash : Obligations.StepKeepsTheDatapathOnTheHash := by
  intro s t hInv hTracks h
  obtain ⟨-, rest, hchange⟩ | ⟨-, hchange⟩ | ⟨-, rfl⟩ := step_changes hInv h
  · exact hchange.tracks (tracks_sameCore hTracks (sameCore_takeTurn_program s rest))
  · have hsame := sameCore_takeTurn s
    exact hchange.tracks (inv_sameCore hInv hsame) (tracks_sameCore hTracks hsame)
  · exact tracks_of_idle_or_check (.inl rfl)

/-- Settles O52: the state after reset is idle, with clear flags and an empty buffer. -/
theorem invariantsHoldAtReset : Obligations.InvariantsHoldAtReset :=
  ⟨⟨by decide, by decide⟩, inv_of_idle rfl (by decide) (by decide), tracks_of_idle_or_check (.inl rfl)⟩

/-! ### The digest delivered -/

theorem padded_length (s : State) : (padded s).length = 64 * nBlocks s.msgLen.toNat := by
  rw [padded, pad_length, message_length, padLen_eq_nBlocks]

/-- After the last block the hash state is that of the whole message. -/
theorem assembleDigest_eq_hashMessage {s : State} (hInv : Inv s) (hTracks : Tracks s) (hphase : s.phase = .assemble) :
    assembleDigest s.hs = hashMessage (message s.msg s.msgLen.toNat) := by
  have hhash : hashing s := by simp [hashing, hphase]
  have hblocks : (padded s).length / 64 = s.blk.toNat := by
    rw [padded_length, hInv.blocksDone hphase, (hInv.accepted hhash).2]
    omega
  rw [hTracks.hashState hhash, hashMessage, ← hblocks, padded]

/-- Settles O56: ASSEMBLE serialises the hash state after the last block. -/
theorem assembleDeliversTheHashOfTheMessage : Obligations.AssembleDeliversTheHashOfTheMessage := by
  intro s hInv hTracks hphase hturn
  have herr : s.err = false := (hInv.busyClear (by simp [hphase])).2
  have hdigest := assembleDigest_eq_hashMessage hInv hTracks hphase
  exact ⟨_, step_assemble hturn hphase, rfl, herr, rfl, hdigest⟩

end Sys2Proof.Machine
end

section
/-!
PROOFS. Progress and runs (R42, R85, R103). Every core step of a hash lowers `stepsLeft` by one and no host access changes
it, so a run is an induction over the turns in which the count of core turns and `stepsLeft` go down together.
-/
namespace Sys2Proof.Machine

open Sys2Proof.Safety

/-! ### The count of core steps -/

theorem stepsLeft_idle {s : State} (h : s.phase = .idle) : stepsLeft s = 0 := by rw [stepsLeft, h]

theorem stepsLeft_pos {s : State} (h : s.phase ≠ .idle) : 0 < stepsLeft s := by
  unfold stepsLeft
  cases hphase : s.phase <;> dsimp only
  case idle => exact absurd hphase h
  case check => split <;> omega
  all_goals omega

theorem CoreChange.stepsLeft {s t : State} (h : CoreChange s t) (hInv : Inv s) (hbusy : s.phase ≠ .idle) :
    stepsLeft t + 1 = stepsLeft s := by
  have hblk : hashing s → s.phase ≠ .assemble → s.blk.toNat < s.nblk.toNat := hInv.blockLt
  cases h with
  | idle hphase => exact absurd hphase hbusy
  | rejected hphase hreject => simp [Safety.stepsLeft, hphase, hreject]
  | accepted hphase hlength =>
    simp only [Safety.stepsLeft, hphase, if_pos hlength, nBlocks_toNat hlength.1, BitVec.toNat_ofNat]
    omega
  | load hphase =>
    have hmore := hblk (by simp [hashing, hphase]) (by simp [hphase])
    simp only [Safety.stepsLeft, hphase, BitVec.toNat_ofNat]
    omega
  | expandMore hphase hlow hhigh =>
    simp only [Safety.stepsLeft, hphase, index_succ_toNat (show s.t.toNat < 127 by omega)]
    omega
  | expandLast hphase hlast =>
    simp only [Safety.stepsLeft, hphase, hlast, BitVec.toNat_ofNat]
    omega
  | roundMore hphase hindex =>
    simp only [Safety.stepsLeft, hphase, index_succ_toNat (show s.t.toNat < 127 by omega)]
    omega
  | roundLast hphase hlast =>
    simp only [Safety.stepsLeft, hphase, hlast]
    omega
  | feedMore hphase hmore =>
    simp only [Safety.stepsLeft, hphase, blk_succ_toNat hmore]
    omega
  | feedLast hphase hlast =>
    simp only [Safety.stepsLeft, hphase]
    omega
  | assemble hphase =>
    simp only [Safety.stepsLeft, hphase]

/-- The message of a hash, the parameters and what the host has still to do. -/
structure SameHostSide (s t : State) : Prop where
  msg : t.msg = s.msg
  msgLen : t.msgLen = s.msgLen
  params : t.params = s.params
  program : t.program = s.program

/-- A core step answers, and uses up its turn only. -/
theorem step_core_answers {s : State} (hInv : Inv s) (hturn : nextTurn s = .core) :
    ∃ t, step s = .next t ∧ CoreChange (takeTurn s) t ∧ SameHostSide s t ∧ t.turns = s.turns.tail := by
  obtain ⟨t, ht⟩ := exec_answers (fetch s) (takeTurn s)
  obtain ⟨hmsg, hlen, hparams, hprogram, hturns, -⟩ := exec_hostSide ht
  exact ⟨t, (step_core hturn).trans ht, exec_coreChange (inv_sameCore hInv (sameCore_takeTurn s)) ht,
    ⟨hmsg, hlen, hparams, hprogram⟩, hturns⟩

/-- While busy, a host turn changes nothing of the core. -/
theorem step_host_busy {s t : State} (hbusy : s.phase ≠ .idle) (hturn : nextTurn s = .host) (h : step s = .next t) :
    SameCore s t := by
  obtain ⟨rest, hchange⟩ := step_hostChange hturn h
  exact hchange.sameCore_of_busy hbusy

/-- Settles O57: the core's change by its phase, and the host's is none. -/
theorem coreStepsAreCountedAndHostAccessesAreNot : Obligations.CoreStepsAreCountedAndHostAccessesAreNot := by
  refine ⟨fun s hInv hbusy hturn => ?core, fun s t hInv hbusy hturn h => ?host⟩
  case core =>
    obtain ⟨t, ht, hchange, -⟩ := step_core_answers hInv hturn
    exact ⟨t, ht, hchange.stepsLeft (inv_sameCore hInv (sameCore_takeTurn s)) hbusy⟩
  case host =>
    have hsame := step_host_busy hbusy hturn h
    exact ⟨hsame.stepsLeft, hsame.phase⟩

/-! ### Runs that stay busy to their last step -/

/-- The `n` steps from `s` end in `t`, which is the first idle state. -/
structure FirstIdleAfter (n : Nat) (s t : State) : Prop where
  run : Host.Core.run core n s = .next t
  idle : t.phase = .idle
  busyBefore : ∀ k, k < n → ∃ u, Host.Core.run core k s = .next u ∧ u.phase ≠ .idle

theorem firstIdleAfter_zero {s : State} (h : s.phase = .idle) : FirstIdleAfter 0 s s :=
  ⟨rfl, h, fun _ hk => absurd hk (Nat.not_lt_zero _)⟩

theorem firstIdleAfter_succ {n : Nat} {s u t : State} (hbusy : s.phase ≠ .idle) (hstep : step s = .next u)
    (h : FirstIdleAfter n u t) : FirstIdleAfter (n + 1) s t := by
  refine ⟨(run_succ hstep n).trans h.run, h.idle, fun k hk => ?_⟩
  cases k with
  | zero => exact ⟨s, rfl, hbusy⟩
  | succ k =>
    obtain ⟨v, hv, hvbusy⟩ := h.busyBefore k (by omega)
    exact ⟨v, (run_succ hstep k).trans hv, hvbusy⟩

theorem nextTurn_of_no_turns {s : State} (hturns : s.turns = []) (hbusy : s.phase ≠ .idle) : nextTurn s = .core := by
  rw [nextTurn, hturns]
  exact if_neg hbusy

theorem firstIdleAfter_stepsLeft {s : State} (hInv : Inv s) (hturns : s.turns = []) :
    ∃ t, FirstIdleAfter (stepsLeft s) s t := by
  induction hn : stepsLeft s generalizing s with
  | zero =>
    by_cases hidle : s.phase = .idle
    · exact ⟨s, firstIdleAfter_zero hidle⟩
    · exact absurd hn (stepsLeft_pos hidle).ne'
  | succ n ih =>
    have hbusy : s.phase ≠ .idle := fun hidle => by rw [stepsLeft_idle hidle] at hn; omega
    have hInv' := inv_sameCore hInv (sameCore_takeTurn s)
    obtain ⟨u, hstep, hchange, -, hturns'⟩ := step_core_answers hInv (nextTurn_of_no_turns hturns hbusy)
    have hcount : stepsLeft u + 1 = stepsLeft s := hchange.stepsLeft hInv' hbusy
    obtain ⟨t, ht⟩ := ih (hchange.inv hInv') (by rw [hturns', hturns]; rfl) (by omega)
    exact ⟨t, firstIdleAfter_succ hbusy hstep ht⟩

/-- Settles O59: by induction on the steps left, each the core's. -/
theorem busyCoreBecomesIdle : Obligations.BusyCoreBecomesIdle := by
  intro s hInv hturns
  obtain ⟨t, hrun, hidle, hbusy⟩ := firstIdleAfter_stepsLeft hInv hturns
  exact ⟨t, hrun, hidle, hbusy⟩

/-! ### The run of a hash -/

/-- How the hash in progress in `s` ends (R85). -/
structure HashEnds (s t : State) : Prop where
  success : lengthOk s.params.msgMaxBytes s.msgLen.toNat →
    t.done = true ∧ t.err = false ∧ t.msg = s.msg ∧ t.msgLen = s.msgLen ∧
      t.dout = hashMessage (message s.msg s.msgLen.toNat)
  failure : ¬lengthOk s.params.msgMaxBytes s.msgLen.toNat →
    t.done = false ∧ t.err = true ∧ t.errcode = rejectCode s

theorem hashEnds_congr {s u t : State} (hmsg : u.msg = s.msg) (hlen : u.msgLen = s.msgLen)
    (hparams : u.params = s.params) (h : HashEnds u t) : HashEnds s t := by
  obtain ⟨hsuccess, hfailure⟩ := h
  rw [hmsg, hlen, hparams] at hsuccess
  rw [rejectCode, hlen, hparams] at hfailure
  exact ⟨hsuccess, hfailure⟩

/-- The core step that ends a hash is the rejection of its length or ASSEMBLE. -/
theorem CoreChange.hashEnds {s t : State} (h : CoreChange s t) (hInv : Inv s) (hTracks : Tracks s)
    (hbusy : s.phase ≠ .idle) (hidle : t.phase = .idle) : HashEnds s t := by
  cases h with
  | idle hphase => exact absurd hphase hbusy
  | rejected _ hreject => exact ⟨fun hlength => absurd hlength hreject, fun _ => ⟨rfl, rfl, rfl⟩⟩
  | assemble hphase =>
    have hlength := (hInv.accepted (by simp [hashing, hphase])).1
    have hdigest := assembleDigest_eq_hashMessage hInv hTracks hphase
    exact ⟨fun _ => ⟨rfl, (hInv.busyClear hbusy).2, rfl, rfl, hdigest⟩, fun hreject => absurd hlength hreject⟩
  | expandMore | roundMore => exact absurd hidle hbusy
  | accepted | load | expandLast | roundLast | feedMore | feedLast => cases hidle

/-- A defined host program keeps answering while the core is busy. -/
theorem hostTurn_answers {s : State} (hbusy : s.phase ≠ .idle) (hprogram : DefinedProgram s.params s.program) :
    ∃ t, hostTurn s = .next t ∧ DefinedProgram t.params t.program ∧ t.turns = s.turns := by
  match hhead : s.program with
  | [] => exact ⟨s, hostTurn_nil hhead, hprogram, rfl⟩
  | .pollIdle :: rest => exact ⟨_, hostTurn_pollIdle hhead, by simpa [hbusy] using hprogram, rfl⟩
  | .bus x :: rest =>
    rw [hhead] at hprogram
    have hdefined : Defined s.params x := hprogram x List.mem_cons_self
    obtain ⟨t, ht, hsame, -⟩ := busyCoreIgnoresTheHost x { s with program := rest } hbusy hdefined
    refine ⟨t, (hostTurn_bus hhead).trans ht, ?_, by rw [hsame]⟩
    rw [hsame]
    exact fun y hy => hprogram y (List.mem_cons_of_mem _ hy)

theorem getLast?_tail {u : Turn} {us : List Turn} (hne : us ≠ []) (h : (u :: us).getLast? = some .core) :
    us.getLast? = some .core := by
  obtain ⟨v, vs, rfl⟩ := List.exists_cons_of_ne_nil hne
  rwa [List.getLast?_cons_cons] at h

/-- With no core turn left to take, the prescribed turns are at their end. -/
theorem eq_nil_of_count_core {us : List Turn} (hlast : us ≠ [] → us.getLast? = some .core)
    (hcount : us.count .core = 0) : us = [] := by
  by_contra hne
  exact List.count_eq_zero.mp hcount (List.mem_of_getLast? (hlast hne))

/-- A busy core with as many core turns prescribed as it has steps left ends its hash with the last of them. -/
theorem hash_run {us : List Turn} : ∀ {s : State}, Inv s → Tracks s → s.phase ≠ .idle →
    DefinedProgram s.params s.program → s.turns = us → .reset ∉ us → us.getLast? = some .core →
    us.count .core = stepsLeft s → ∃ t, FirstIdleAfter us.length s t ∧ HashEnds s t := by
  induction us with
  | nil => intro s _ _ _ _ _ _ hlast; cases hlast
  | cons u us ih =>
    intro s hInv hTracks hbusy hprogram hturns hreset hlast hcount
    have hturn : nextTurn s = u := by rw [nextTurn, hturns]
    have hreset' : .reset ∉ us := fun hmem => hreset (List.mem_cons_of_mem _ hmem)
    have hlast' (hne : us ≠ []) := getLast?_tail hne hlast
    cases u with
    | reset => exact absurd List.mem_cons_self hreset
    | host =>
      obtain ⟨v, hv, hprogram', hturns'⟩ := hostTurn_answers (s := takeTurn s) hbusy hprogram
      have hstep : step s = .next v := (step_host hturn).trans hv
      have hsame := step_host_busy hbusy hturn hstep
      have hne : us ≠ [] := by rintro rfl; cases hlast
      obtain ⟨t, ht, hends⟩ := ih (inv_sameCore hInv hsame) (tracks_sameCore hTracks hsame) (hsame.phase ▸ hbusy)
        hprogram' (by rw [hturns', takeTurn_turns, hturns, List.tail_cons]) hreset' (hlast' hne)
        (by rw [hsame.stepsLeft, ← hcount]; simp)
      exact ⟨t, firstIdleAfter_succ hbusy hstep ht, hashEnds_congr hsame.msg hsame.msgLen hsame.params hends⟩
    | core =>
      have hInv' := inv_sameCore hInv (sameCore_takeTurn s)
      have hTracks' := tracks_sameCore hTracks (sameCore_takeTurn s)
      obtain ⟨v, hstep, hchange, ⟨hmsg, hlen, hparams, hprogram'⟩, hturns'⟩ := step_core_answers hInv hturn
      have hleft : stepsLeft v + 1 = stepsLeft s := hchange.stepsLeft hInv' hbusy
      have hcount' : us.count .core = stepsLeft v := by rw [List.count_cons_self] at hcount; omega
      by_cases hidle : v.phase = .idle
      · have hend : us = [] := eq_nil_of_count_core hlast' (hcount'.trans (stepsLeft_idle hidle))
        subst hend
        exact ⟨v, firstIdleAfter_succ hbusy hstep (firstIdleAfter_zero hidle),
          hashEnds_congr (u := takeTurn s) rfl rfl rfl (hchange.hashEnds hInv' hTracks' hbusy hidle)⟩
      · have hne : us ≠ [] := by
          rintro rfl
          exact (stepsLeft_pos hidle).ne hcount'
        obtain ⟨t, ht, hends⟩ := ih (hchange.inv hInv') (hchange.tracks hInv' hTracks') hidle
          (by rwa [hparams, hprogram']) (by rw [hturns', hturns, List.tail_cons]) hreset' (hlast' hne) hcount'
        exact ⟨t, firstIdleAfter_succ hbusy hstep ht, hashEnds_congr hmsg hlen hparams hends⟩

/-- A started hash has all its steps before it (R85). -/
theorem started_hash_run {s : State} {us : List Turn} (hprogram : DefinedProgram s.params s.program)
    (hreset : .reset ∉ us) (hlast : us.getLast? = some .core)
    (hcount : us.count .core =
      if lengthOk s.params.msgMaxBytes s.msgLen.toNat then 2 + 114 * nBlocks s.msgLen.toNat else 1) :
    ∃ t, FirstIdleAfter us.length { acceptStart s with turns := us } t ∧ HashEnds s t := by
  obtain ⟨t, ht, hends⟩ := hash_run (us := us) (s := { acceptStart s with turns := us }) (inv_of_check rfl rfl rfl rfl)
    (tracks_of_idle_or_check (.inr rfl)) (by simp) hprogram rfl hreset hlast hcount
  exact ⟨t, ht, hashEnds_congr (u := { acceptStart s with turns := us }) rfl rfl rfl hends⟩

/-- Settles O58: by induction on the turns, from the state the accepted START leaves. -/
theorem hashRunUnderEveryInterleaving : Obligations.HashRunUnderEveryInterleaving := by
  intro ign s s0 us hidle hstart hprogram hreset hlast
  cases (exec_start_idle hidle ign).symm.trans hstart
  refine ⟨fun hreject hcount => ?rejected, fun hlength hcount => ?accepted⟩
  case rejected =>
    obtain ⟨t, ⟨hrun, htidle, hbusy⟩, hends⟩ := started_hash_run hprogram hreset hlast (by rwa [if_neg hreject])
    obtain ⟨hdone, herr, hcode⟩ := hends.failure hreject
    exact ⟨hbusy, t, hrun, htidle, hdone, herr, hcode⟩
  case accepted =>
    obtain ⟨t, ⟨hrun, htidle, hbusy⟩, hends⟩ := started_hash_run hprogram hreset hlast (by rwa [if_pos hlength])
    exact ⟨hbusy, t, hrun, htidle, hends.success hlength⟩

end Sys2Proof.Machine
end

section
/-!
PROOFS. Hidden state (R29). Two states that look alike to the host, and agree on what the rest of the hash reads, take the
same step: a host access uses the visible part alone, and each phase uses exactly what `SameLive` lists for it.
-/
namespace Sys2Proof.Machine

open Sys2Proof.Safety

/-- Two states that a host cannot tell apart, the control invariant left aside. -/
structure LookAlike (s t : State) : Prop where
  visible : SameVisible s t
  live : SameLive s t

/-- Two outcomes a host cannot tell apart. -/
inductive AlikeOutcomes :
    Host.Outcome State Fault Refusal → Host.Outcome State Fault Refusal → Prop
  | next {s t : State} (h : LookAlike s t) : AlikeOutcomes (.next s) (.next t)
  | refused (r : Refusal) : AlikeOutcomes (.refused r) (.refused r)

theorem AlikeOutcomes.of_next {o o' : Host.Outcome State Fault Refusal} {s : State} (h : AlikeOutcomes o o')
    (ho : o = .next s) : ∃ t, o' = .next t ∧ LookAlike s t := by
  cases h with
  | next h => cases ho; exact ⟨_, rfl, h⟩
  | refused r => cases ho

theorem AlikeOutcomes.of_refused {o o' : Host.Outcome State Fault Refusal} {r : Refusal} (h : AlikeOutcomes o o')
    (ho : o = .refused r) : o' = .refused r := by
  cases h with
  | next h => cases ho
  | refused r => exact ho

/-! ### The live registers, by the phase that reads them -/

theorem sameLive_refl (s : State) : SameLive s s :=
  ⟨fun _ => ⟨rfl, rfl, rfl⟩, fun _ => rfl, fun _ _ _ _ => rfl, fun _ => rfl, fun _ => rfl⟩

theorem sameVisible_refl (s : State) : SameVisible s s :=
  ⟨rfl, rfl, rfl, rfl, rfl, fun _ => rfl, rfl, rfl, rfl, rfl, rfl, rfl⟩

/-- The first `n` schedule words of two states are the same. -/
def AgreeBelow (n : Nat) (w w' : Vector Word 64) : Prop := ∀ j (_ : j < 64), j < n → w[j] = w'[j]

section
variable {s t : State}

/-- In IDLE and CHECK no hidden register is live. -/
theorem sameLive_of_idle_or_check (h : s.phase = .idle ∨ s.phase = .check) : SameLive s t := by
  obtain hphase | hphase := h <;> refine ⟨?_, ?_, ?_, ?_, ?_⟩ <;> simp [hphase]

theorem sameLive_of_load_or_assemble (h : s.phase = .load ∨ s.phase = .assemble)
    (hposition : s.blk = t.blk ∧ s.nblk = t.nblk ∧ s.hs = t.hs) : SameLive s t := by
  refine ⟨fun _ => hposition, ?_, ?_, ?_, ?_⟩ <;> obtain hphase | hphase := h <;> simp [hphase]

theorem sameLive_of_expand (hphase : s.phase = .expand) (hposition : s.blk = t.blk ∧ s.nblk = t.nblk ∧ s.hs = t.hs)
    (hindex : s.t = t.t) (hwords : AgreeBelow s.t.toNat s.w t.w) (hwork : s.work = t.work) : SameLive s t :=
  ⟨fun _ => hposition, fun _ => hindex, fun _ => hwords, by simp [hphase], fun _ => hwork⟩

theorem sameLive_of_round (hphase : s.phase = .round) (hposition : s.blk = t.blk ∧ s.nblk = t.nblk ∧ s.hs = t.hs)
    (hindex : s.t = t.t) (hwords : s.w = t.w) (hwork : s.work = t.work) : SameLive s t :=
  ⟨fun _ => hposition, fun _ => hindex, by simp [hphase], fun _ => hwords, fun _ => hwork⟩

theorem sameLive_of_feed (hphase : s.phase = .feed) (hposition : s.blk = t.blk ∧ s.nblk = t.nblk ∧ s.hs = t.hs)
    (hwork : s.work = t.work) : SameLive s t :=
  ⟨fun _ => hposition, by simp [hphase], by simp [hphase], by simp [hphase], fun _ => hwork⟩

end

/-! ### Host accesses -/

section
variable {s t : State} (h : LookAlike s t)
include h

theorem LookAlike.reply (v : Word) : LookAlike (reply v s) (reply v t) := by
  obtain ⟨⟨hlen, hphase, hdone, herr, hcode, hdout, hmsg, hparams, hdraws, hprogram, hturns, hreads⟩, hlive⟩ := h
  refine ⟨⟨hlen, hphase, hdone, herr, hcode, hdout, hmsg, hparams, hdraws, hprogram, hturns, ?_⟩, ?_⟩
  · rw [reply_reads, reply_reads, hreads]
  · exact ⟨hlive.position, hlive.index, hlive.prefixWords, hlive.allWords, hlive.working⟩

theorem LookAlike.draw : LookAlike { s with draws := s.draws + 1 } { t with draws := t.draws + 1 } := by
  obtain ⟨⟨hlen, hphase, hdone, herr, hcode, hdout, hmsg, hparams, hdraws, hprogram, hturns, hreads⟩, hlive⟩ := h
  exact ⟨⟨hlen, hphase, hdone, herr, hcode, hdout, hmsg, hparams, congrArg (· + 1) hdraws, hprogram, hturns, hreads⟩,
    hlive.position, hlive.index, hlive.prefixWords, hlive.allWords, hlive.working⟩

theorem LookAlike.takeTurn : LookAlike (takeTurn s) (takeTurn t) := by
  obtain ⟨⟨hlen, hphase, hdone, herr, hcode, hdout, hmsg, hparams, hdraws, hprogram, hturns, hreads⟩, hlive⟩ := h
  exact ⟨⟨hlen, hphase, hdone, herr, hcode, hdout, hmsg, hparams, hdraws, hprogram, congrArg List.tail hturns, hreads⟩,
    hlive.position, hlive.index, hlive.prefixWords, hlive.allWords, hlive.working⟩

theorem LookAlike.withProgram (rest : List HostOp) :
    LookAlike { s with program := rest } { t with program := rest } := by
  obtain ⟨⟨hlen, hphase, hdone, herr, hcode, hdout, hmsg, hparams, hdraws, hprogram, hturns, hreads⟩, hlive⟩ := h
  exact ⟨⟨hlen, hphase, hdone, herr, hcode, hdout, hmsg, hparams, hdraws, rfl, hturns, hreads⟩,
    hlive.position, hlive.index, hlive.prefixWords, hlive.allWords, hlive.working⟩

theorem LookAlike.raiseError (c : ErrCode) : LookAlike (raiseError c s) (raiseError c t) := by
  obtain ⟨⟨hlen, -, -, -, -, -, hmsg, hparams, hdraws, hprogram, hturns, hreads⟩, -⟩ := h
  exact ⟨⟨hlen, rfl, rfl, rfl, rfl, by simp, hmsg, hparams, hdraws, hprogram, hturns, hreads⟩,
    sameLive_of_idle_or_check (.inl rfl)⟩

theorem LookAlike.acceptStart : LookAlike (acceptStart s) (acceptStart t) := by
  obtain ⟨⟨hlen, -, -, -, -, -, hmsg, hparams, hdraws, hprogram, hturns, hreads⟩, -⟩ := h
  exact ⟨⟨hlen, rfl, rfl, rfl, rfl, by simp, hmsg, hparams, hdraws, hprogram, hturns, hreads⟩,
    sameLive_of_idle_or_check (.inr rfl)⟩

theorem LookAlike.writeMsgLen (n : U64) : LookAlike (writeMsgLen n s) (writeMsgLen n t) := by
  by_cases hidle : s.phase = .idle
  · rw [writeMsgLen_idle hidle, writeMsgLen_idle (h.visible.phase ▸ hidle)]
    obtain ⟨⟨hlen, hphase, hdone, herr, hcode, hdout, hmsg, hparams, hdraws, hprogram, hturns, hreads⟩, -⟩ := h
    exact ⟨⟨rfl, hphase, hdone, herr, hcode, hdout, hmsg, hparams, hdraws, hprogram, hturns, hreads⟩,
      sameLive_of_idle_or_check (.inl hidle)⟩
  · rwa [writeMsgLen_busy hidle, writeMsgLen_busy (h.visible.phase ▸ hidle)]

theorem LookAlike.writeMsg (i : Nat) (v : Byte) : LookAlike (writeMsg i v s) (writeMsg i v t) := by
  by_cases hidle : s.phase = .idle
  · rw [writeMsg_idle hidle, writeMsg_idle (h.visible.phase ▸ hidle)]
    obtain ⟨⟨hlen, hphase, hdone, herr, hcode, hdout, hmsg, hparams, hdraws, hprogram, hturns, hreads⟩, -⟩ := h
    exact ⟨⟨hlen, hphase, hdone, herr, hcode, hdout, congrArg (memWrite · i v) hmsg, hparams, hdraws, hprogram, hturns,
      hreads⟩, sameLive_of_idle_or_check (.inl hidle)⟩
  · rwa [writeMsg_busy hidle, writeMsg_busy (h.visible.phase ▸ hidle)]

theorem LookAlike.statusWord_eq : statusWord s = statusWord t := by
  obtain ⟨⟨-, hphase, hdone, herr, hcode, -⟩, -⟩ := h
  rw [statusWord, statusWord, busy, busy, hphase, hdone, herr, hcode]

theorem LookAlike.regWord_eq {r : Reg} (hspecified : ¬UnspecifiedRead s r) : regWord s r = regWord t r := by
  cases r with
  | status => exact h.statusWord_eq
  | msgLenLo => exact congrArg msgLenLo h.visible.msgLen
  | msgLenHi => exact congrArg msgLenHi h.visible.msgLen
  | digest i =>
    have hdone : s.done = true := by simpa [UnspecifiedRead] using hspecified
    exact congrArg (digestWord · i) (h.visible.dout hdone)
  | ctrl | reserved => rfl

theorem LookAlike.unspecifiedRead_iff (r : Reg) : UnspecifiedRead s r ↔ UnspecifiedRead t r := by
  rw [UnspecifiedRead, UnspecifiedRead, h.visible.done]

theorem LookAlike.readReg (r : Reg) : LookAlike (readReg r s) (readReg r t) := by
  by_cases hfree : UnspecifiedRead s r
  · have hword : Config.freeWord s.draws 0 = Config.freeWord t.draws 0 := by rw [h.visible.draws]
    rw [readReg_unspecified hfree, readReg_unspecified ((h.unspecifiedRead_iff r).mp hfree), hword]
    exact h.draw.reply _
  · rw [readReg_specified hfree, readReg_specified (mt (h.unspecifiedRead_iff r).mpr hfree), h.regWord_eq hfree]
    exact h.reply _

theorem LookAlike.afterCommand (cmd : BitVec 4) : LookAlike (afterCommand cmd s) (afterCommand cmd t) := by
  by_cases hidle : s.phase = .idle
  · have hidle' : t.phase = .idle := h.visible.phase ▸ hidle
    rw [Machine.afterCommand, Machine.afterCommand, reservedCommand_idle hidle, reservedCommand_idle hidle',
      if_pos hidle, if_pos hidle']
    split_ifs
    · exact h
    · exact h.acceptStart
    · exact h.raiseError .badCmd
  · have hbusy' : t.phase ≠ .idle := h.visible.phase ▸ hidle
    rw [Machine.afterCommand, Machine.afterCommand, reservedCommand_busy hidle, reservedCommand_busy hbusy',
      if_neg hidle, if_neg hbusy', ite_self, ite_self, ite_self, ite_self]
    exact h

theorem LookAlike.writeReg (r : Reg) (v : Word) : AlikeOutcomes (writeReg r v s) (writeReg r v t) := by
  cases r with
  | ctrl =>
    rw [Machine.writeReg, Machine.writeReg, exec_decodeCmd, exec_decodeCmd]
    exact .next (h.afterCommand _)
  | msgLenLo =>
    rw [Machine.writeReg, Machine.writeReg, h.visible.msgLen]
    exact .next (h.writeMsgLen _)
  | msgLenHi =>
    rw [Machine.writeReg, Machine.writeReg, h.visible.msgLen]
    exact .next (h.writeMsgLen _)
  | status | digest | reserved => exact .next h

theorem LookAlike.regAccess (x : Transaction) : AlikeOutcomes (regAccess x s) (regAccess x t) := by
  rw [Machine.regAccess, Machine.regAccess]
  split
  · cases hreg : regAt x.offset with
    | none => exact .refused _
    | some r =>
      cases x.access with
      | read => exact .next (h.readReg r)
      | write v => exact h.writeReg r v
  · exact .refused _

theorem LookAlike.msgAccess (x : Transaction) : AlikeOutcomes (msgAccess x s) (msgAccess x t) := by
  rw [Machine.msgAccess, Machine.msgAccess, h.visible.params, h.visible.msg]
  split
  · cases x.access with
    | read => exact .next (h.reply _)
    | write v => exact .next (h.writeMsg _ _)
  · exact .refused _

theorem LookAlike.access (x : Transaction) : AlikeOutcomes (access x s) (access x t) := by
  rw [Machine.access, Machine.access]
  cases x.space with
  | reg => exact h.regAccess x
  | msg => exact h.msgAccess x

theorem LookAlike.hostTurn : AlikeOutcomes (hostTurn s) (hostTurn t) := by
  have hprogram := h.visible.program
  match hhead : s.program with
  | [] =>
    rw [hostTurn_nil hhead, hostTurn_nil (hprogram ▸ hhead)]
    exact .next h
  | .bus x :: rest =>
    rw [hostTurn_bus hhead, hostTurn_bus (hprogram ▸ hhead)]
    exact (h.withProgram rest).access x
  | .pollIdle :: rest =>
    have hrest : (if s.phase = .idle then rest else s.program) = if t.phase = .idle then rest else t.program := by
      rw [h.visible.phase, hprogram]
    rw [hostTurn_pollIdle hhead, hostTurn_pollIdle (hprogram ▸ hhead), hrest, h.statusWord_eq]
    exact .next ((h.withProgram _).reply _)

/-- The reset event reads nothing hidden. -/
theorem LookAlike.resetEvent_eq : resetEvent s = resetEvent t := by
  obtain ⟨⟨-, -, -, -, -, -, -, hparams, hdraws, hprogram, hturns, hreads⟩, -⟩ := h
  rw [resetEvent, resetEvent, hparams, hdraws, hprogram, hturns, hreads]

end

/-! ### Core steps -/

/-- EXPAND computes the same word from words that agree. -/
theorem agreeBelow_set {w w' : Vector Word 64} {t : Nat} (h : AgreeBelow t w w') (hlow : 16 ≤ t) (ht : t < 64) :
    AgreeBelow (t + 1) (w.set t (scheduleSum w[t - 2] w[t - 7] w[t - 15] w[t - 16]))
      (w'.set t (scheduleSum w'[t - 2] w'[t - 7] w'[t - 15] w'[t - 16])) := by
  intro j hj hjt
  by_cases heq : j = t
  · subst heq
    rw [Vector.getElem_set_self, Vector.getElem_set_self, h (j - 2) (by omega) (by omega),
      h (j - 7) (by omega) (by omega), h (j - 15) (by omega) (by omega), h (j - 16) (by omega) (by omega)]
  · rw [Vector.getElem_set_ne ht hj (Ne.symm heq), Vector.getElem_set_ne ht hj (Ne.symm heq), h j hj (by omega)]

theorem eq_of_agreeBelow {w w' : Vector Word 64} (h : AgreeBelow 64 w w') : w = w' :=
  Vector.ext fun j hj => h j hj hj

theorem agreeBelow_replaceFirst16 (w w' : Vector Word 64) (f : Nat → Word) :
    AgreeBelow 16 (replaceFirst16 w f) (replaceFirst16 w' f) := by
  intro j hj hlow
  rw [replaceFirst16_getElem, replaceFirst16_getElem, if_pos hlow, if_pos hlow]

section
variable {s t : State} (hs : Inv s) (ht : Inv t) (h : LookAlike s t)

section
include h

theorem execCheck_alike : AlikeOutcomes (execCheck s) (execCheck t) := by
  have hreject : rejectCode s = rejectCode t := by rw [rejectCode, rejectCode, h.visible.msgLen]
  by_cases hlength : lengthOk s.params.msgMaxBytes s.msgLen.toNat
  · have hlength' : lengthOk t.params.msgMaxBytes t.msgLen.toNat := h.visible.params ▸ h.visible.msgLen ▸ hlength
    rw [execCheck_accepted hlength, execCheck_accepted hlength', h.visible.msgLen]
    obtain ⟨⟨hlen, -, hdone, herr, hcode, hdout, hmsg, hparams, hdraws, hprogram, hturns, hreads⟩, -⟩ := h
    exact .next ⟨⟨rfl, rfl, hdone, herr, hcode, hdout, hmsg, hparams, hdraws, hprogram, hturns, hreads⟩,
      sameLive_of_load_or_assemble (.inl rfl) ⟨rfl, rfl, rfl⟩⟩
  · have hlength' : ¬lengthOk t.params.msgMaxBytes t.msgLen.toNat := h.visible.params ▸ h.visible.msgLen ▸ hlength
    rw [execCheck_rejected hlength, execCheck_rejected hlength', hreject]
    exact .next (h.raiseError _)

theorem LookAlike.loadByte_eq : loadByte s = loadByte t := by
  funext i
  rw [loadByte, loadByte, h.visible.msg, h.visible.params, h.visible.msgLen, h.visible.draws]

theorem execAssemble_alike (hphase : s.phase = .assemble) : AlikeOutcomes (execAssemble s) (execAssemble t) := by
  obtain ⟨-, -, hhs⟩ := h.live.position (by simp [hashing, hphase])
  obtain ⟨⟨hlen, -, -, herr, hcode, -, hmsg, hparams, hdraws, hprogram, hturns, hreads⟩, -⟩ := h
  exact .next ⟨⟨hlen, rfl, rfl, herr, hcode, fun _ => congrArg assembleDigest hhs, hmsg, hparams, hdraws, hprogram, hturns,
    hreads⟩, sameLive_of_idle_or_check (.inl rfl)⟩

end

include hs h

theorem execExpand_alike (hphase : s.phase = .expand) : AlikeOutcomes (execExpand s) (execExpand t) := by
  have hposition := h.live.position (by simp [hashing, hphase])
  have hindex := h.live.index (.inl hphase)
  have hwords : AgreeBelow s.t.toNat s.w t.w := h.live.prefixWords hphase
  have hwork := h.live.working (.inl hphase)
  obtain ⟨hlow, hhigh⟩ := hs.expandIndex hphase
  have hwords' := agreeBelow_set hwords hlow (by omega)
  obtain ⟨⟨hlen, hphase', hdone, herr, hcode, hdout, hmsg, hparams, hdraws, hprogram, hturns, hreads⟩, -⟩ := h
  obtain hlast | hmore : s.t.toNat = 63 ∨ s.t.toNat < 63 := by omega
  · simp only [hlast] at hwords'
    rw [execExpand_last hlast, execExpand_last (hindex ▸ hlast)]
    exact .next ⟨⟨hlen, rfl, hdone, herr, hcode, hdout, hmsg, hparams, hdraws, hprogram, hturns, hreads⟩,
      sameLive_of_round rfl hposition rfl (eq_of_agreeBelow hwords') hwork⟩
  · rw [← index_succ_toNat (by omega)] at hwords'
    rw [execExpand_more hlow hmore, execExpand_more (hindex ▸ hlow) (hindex ▸ hmore)]
    simp only [← hindex]
    exact .next ⟨⟨hlen, hphase', hdone, herr, hcode, hdout, hmsg, hparams, hdraws, hprogram, hturns, hreads⟩,
      sameLive_of_expand hphase hposition rfl hwords' hwork⟩

theorem execRound_alike (hphase : s.phase = .round) : AlikeOutcomes (execRound s) (execRound t) := by
  have hposition := h.live.position (by simp [hashing, hphase])
  have hindex := h.live.index (.inr hphase)
  have hwords := h.live.allWords hphase
  have hwork := h.live.working (.inr (.inl hphase))
  have hbound := hs.roundIndex hphase
  obtain ⟨⟨hlen, hphase', hdone, herr, hcode, hdout, hmsg, hparams, hdraws, hprogram, hturns, hreads⟩, -⟩ := h
  obtain hlast | hmore : s.t.toNat = 63 ∨ s.t.toNat < 63 := by omega
  · rw [execRound_last hlast, execRound_last (hindex ▸ hlast), hwords, hwork]
    exact .next ⟨⟨hlen, rfl, hdone, herr, hcode, hdout, hmsg, hparams, hdraws, hprogram, hturns, hreads⟩,
      sameLive_of_feed rfl hposition rfl⟩
  · rw [execRound_more hmore, execRound_more (hindex ▸ hmore)]
    exact .next ⟨⟨hlen, hphase', hdone, herr, hcode, hdout, hmsg, hparams, hdraws, hprogram, hturns, hreads⟩,
      sameLive_of_round hphase hposition (congrArg (· + 1#7) hindex) hwords (by simp only [hindex, hwords, hwork])⟩

theorem execFeed_alike (hphase : s.phase = .feed) : AlikeOutcomes (execFeed s) (execFeed t) := by
  have hhash : hashing s := by simp [hashing, hphase]
  obtain ⟨hblk, hnblk, hhs⟩ := h.live.position hhash
  have hwork := h.live.working (.inr (.inr hphase))
  have hbound := hs.blockLt hhash (by simp [hphase])
  obtain ⟨⟨hlen, -, hdone, herr, hcode, hdout, hmsg, hparams, hdraws, hprogram, hturns, hreads⟩, -⟩ := h
  obtain hlast | hmore : s.blk.toNat + 1 = s.nblk.toNat ∨ s.blk.toNat + 1 < s.nblk.toNat := by omega
  · rw [execFeed_last hlast, execFeed_last (hblk ▸ hnblk ▸ hlast), hhs, hwork, hnblk]
    exact .next ⟨⟨hlen, rfl, hdone, herr, hcode, hdout, hmsg, hparams, hdraws, hprogram, hturns, hreads⟩,
      sameLive_of_load_or_assemble (.inr rfl) ⟨rfl, rfl, rfl⟩⟩
  · rw [execFeed_more hmore, execFeed_more (hblk ▸ hnblk ▸ hmore), hhs, hwork, hblk]
    exact .next ⟨⟨hlen, rfl, hdone, herr, hcode, hdout, hmsg, hparams, hdraws, hprogram, hturns, hreads⟩,
      sameLive_of_load_or_assemble (.inl rfl) ⟨rfl, hnblk, rfl⟩⟩

include ht

theorem execLoad_alike (hphase : s.phase = .load) : AlikeOutcomes (execLoad s) (execLoad t) := by
  have hword := h.loadByte_eq
  obtain ⟨hblk, hnblk, hhs⟩ := h.live.position (by simp [hashing, hphase])
  rw [execLoad_inRange (inv_loadInRange hs hphase), execLoad_inRange (inv_loadInRange ht (h.visible.phase ▸ hphase)),
    hword, hblk, hhs]
  obtain ⟨⟨hlen, -, hdone, herr, hcode, hdout, hmsg, hparams, hdraws, hprogram, hturns, hreads⟩, -⟩ := h
  exact .next ⟨⟨hlen, rfl, hdone, herr, hcode, hdout, hmsg, hparams, hdraws, hprogram, hturns, hreads⟩,
    sameLive_of_expand rfl ⟨rfl, hnblk, rfl⟩ rfl (agreeBelow_replaceFirst16 s.w t.w _) rfl⟩

theorem exec_fetch_alike : AlikeOutcomes (exec (fetch s) s) (exec (fetch t) t) := by
  rw [fetch_phase, fetch_phase, ← h.visible.phase]
  cases hphase : s.phase with
  | idle => exact .next h
  | check => exact execCheck_alike h
  | load => exact execLoad_alike hs ht h hphase
  | expand => exact execExpand_alike hs h hphase
  | round => exact execRound_alike hs h hphase
  | feed => exact execFeed_alike hs h hphase
  | assemble => exact execAssemble_alike h hphase
  | reserved7 => exact absurd hphase hs.notReserved

theorem step_alike : AlikeOutcomes (step s) (step t) := by
  have hturns : nextTurn t = nextTurn s := by rw [nextTurn, nextTurn, h.visible.turns, h.visible.phase]
  cases hturn : nextTurn s with
  | core =>
    rw [step_core hturn, step_core (hturns.trans hturn)]
    exact exec_fetch_alike (inv_sameCore hs (sameCore_takeTurn s)) (inv_sameCore ht (sameCore_takeTurn t)) h.takeTurn
  | host =>
    rw [step_host hturn, step_host (hturns.trans hturn)]
    exact h.takeTurn.hostTurn
  | reset =>
    rw [step_reset hturn, step_reset (hturns.trans hturn), h.takeTurn.resetEvent_eq]
    exact .next ⟨sameVisible_refl _, sameLive_refl _⟩

end

/-- Settles O60: the two steps have outcomes that look alike, and both keep the control invariant. -/
theorem hiddenStateIsNotObservable : Obligations.HiddenStateIsNotObservable := by
  rintro s t ⟨hs, ht, hvisible, hlive⟩
  have halike := step_alike hs ht ⟨hvisible, hlive⟩
  refine ⟨fun s' hstep => ?_, fun r hstep => halike.of_refused hstep⟩
  obtain ⟨t', hstep', hvisible', hlive'⟩ := halike.of_next hstep
  exact ⟨t', hstep', ⟨stepKeepsTheControlInvariant s s' hs hstep, stepKeepsTheControlInvariant t t' ht hstep', hvisible',
    hlive'⟩, hvisible'.reads⟩

end Sys2Proof.Machine
end
